-- ==== Sys2Proof/Word.lean ====
section
/-! DEFINITION. The byte and the byte string (00_scope.md R7): a byte string is a finite sequence of bytes, byte 0 first. -/

namespace Sys2Proof

/-- An 8-bit value, 0 to 255 (R7). -/
abbrev Byte := BitVec 8

/-- A byte string: `s[0]` is the first byte (R7). -/
abbrev Bytes := List Byte

end Sys2Proof
end

