-- ==== Sys2Proof/Config.lean ====
section
/-! DEFINITION. What one built block fixes (00_scope.md R5, R6; 92_eei_decisions.md "Open parameters"):
the key size and the external cipher. -/

namespace Sys2Proof

/-- `KS`: the cipher configuration a block is built for (R5, R6): AES with a 128-, 192- or 256-bit key. -/
inductive KeySize where
  | aes128
  | aes192
  | aes256
  deriving DecidableEq, Repr

/-- `KS`, bytes of cipher key: 16, 24 or 32 (R5). -/
def KeySize.bytes : KeySize → Nat
  | .aes128 => 16
  | .aes192 => 24
  | .aes256 => 32

/-- `BLK`, bytes of one cipher block and of the counter (R5). -/
abbrev blockSize : Nat := 16

/-- `SEED = KS + BLK` (R5). -/
def KeySize.seed (ks : KeySize) : Nat := ks.bytes + blockSize

/-- `NU = ceil(SEED / 16)`, the cipher blocks one Update consumes (R5). -/
def KeySize.nu (ks : KeySize) : Nat := (ks.seed + 15) / blockSize

/-- The type of the external cipher `E(key, block)` (R44): total, and its answer is one 16-byte block. -/
abbrev Cipher := Bytes → Bytes → Vector Byte 16

/-- The external cipher of the machine (R5, R44; 93_implementation_defined.md U2): an uninterpreted total
function. It has no body, so no proof can use a property of it beyond being a function (log entry 2; safe). -/
opaque Config.E : Cipher

end Sys2Proof
end

