-- ==== Sys2Proof/Syntax.lean ====
section
/-! DEFINITION. The three host commands (30_encoding.md R62, R63), one constructor for each row of the opcode table.
A constructor carries the decoded tuple of R63: `ALEN` and `BLEN` are the lengths of its byte operands, and the
fields a row fixes at zero are not carried. -/

namespace Sys2Proof

/-- A decoded command (R63). -/
inductive Instr where
  /-- INSTANTIATE (R100): `OPA` is the entropy input, `OPB` the personalization string. -/
  | instantiate (ent pers : Bytes)
  /-- GENERATE (R105): `LEN` output bytes, no additional input. -/
  | generate (len : BitVec 32)
  /-- GENERATE_AI (R106): `LEN` output bytes; `OPA` is the additional input. -/
  | generateAi (len : BitVec 32) (add : Bytes)
  deriving DecidableEq, Repr

end Sys2Proof
end

