-- ==== Sys2Proof/WellFormed.lean ====
section
/-! DEFINITION. Which commands a packet can carry (30_encoding.md R60, R61): an operand has 0 to 255 bytes, because
`ALEN` and `BLEN` are one byte each. Whether an operand has the length the block wants (`SEED`) is no matter of
form: a wrong length is encodable and is refused by the block (R63, R141). -/

namespace Sys2Proof

/-- An operand's length fits its header byte (R61: 0 to 255). -/
def operandFits (op : Bytes) : Bool := op.length ≤ 255

/-- The command can be written as a packet. -/
def Instr.wellFormed : Instr → Bool
  | .instantiate ent pers => operandFits ent && operandFits pers
  | .generate _ => true
  | .generateAi _ add => operandFits add

end Sys2Proof
end

