-- ==== Sys2Proof/Decode.lean ====
section
/-! DEFINITION. The command packet (30_encoding.md R60 to R68): byte order, header fields, the opcode table, decoding,
framing, and the encoder. Decoding looks at the header alone (R63): not at `INST`, at `SEED` or at operand bytes. -/

namespace Sys2Proof

/-! ## Byte order (R7, R40) -/

/-- `be(s)`: the unsigned integer a byte string denotes, first byte most significant (R7). -/
def beNat (s : Bytes) : Nat := s.foldl (fun acc b => acc * 256 + b.toNat) 0

/-- `bytes_n(k)`: `k` as `n` bytes, first byte most significant (R7). -/
def beBytes (n k : Nat) : Bytes := (List.range n).map fun i => BitVec.ofNat 8 (k / 256 ^ (n - 1 - i))

/-- A byte string on wires (R40): byte 0 in the most significant 8 bits. -/
def wires (s : Bytes) : BitVec (8 * s.length) := BitVec.ofNat _ (beNat s)

/-- `zero(n)`: `n` bytes of `00` (R7). -/
def zeros (n : Nat) : Bytes := List.replicate n 0

/-! ## Header fields (R61, R65) -/

/-- `H = be(packet[0..8))`, the header as a 64-bit number (R61). -/
def headerWord (p : Bytes) : BitVec 64 := BitVec.ofNat 64 (beNat (p.take 8))

/-- `OP = H[63:56]`. -/
def hdrOp (h : BitVec 64) : Byte := h.extractLsb' 56 8
/-- `ALEN = H[55:48]`, the length of `OPA` in bytes. -/
def hdrAlen (h : BitVec 64) : Byte := h.extractLsb' 48 8
/-- `BLEN = H[47:40]`, the length of `OPB` in bytes. -/
def hdrBlen (h : BitVec 64) : Byte := h.extractLsb' 40 8
/-- `RSV = H[39:32]`, reserved, must be `00`. -/
def hdrRsv (h : BitVec 64) : Byte := h.extractLsb' 32 8
/-- `LEN = H[31:0]`, the requested output length in bytes. -/
def hdrLen (h : BitVec 64) : BitVec 32 := h.extractLsb' 0 32

/-- The length of a packet, `8 + ALEN + BLEN`, from header bytes 1 and 2 alone (R60, R68). -/
def packetLength (h : BitVec 64) : Nat := 8 + (hdrAlen h).toNat + (hdrBlen h).toNat

/-- A byte string is one packet: it has `8 + ALEN + BLEN` bytes, `ALEN` and `BLEN` being its bytes 1 and 2 (R60, R68). -/
abbrev wholePacket (p : Bytes) : Prop := p.length = 8 + (p.getD 1 0).toNat + (p.getD 2 0).toNat

/-! ## The opcode map (R62) -/

/-- The mnemonics of the opcode map. -/
inductive Mnemonic where
  | instantiate
  | generate
  | generateAi
  deriving DecidableEq, Repr

/-- One row of the opcode map: a header `H` is of this row when `(H AND mask) = bits` (R62). -/
structure OpRow where
  op   : Mnemonic
  bits : BitVec 64
  mask : BitVec 64
  deriving DecidableEq, Repr

/-- The opcode map (R62; the same numbers as opcode_table.json). -/
def opRows : List OpRow :=
  [ ⟨.instantiate, 0x0100000000000000#64, 0xFF0000FFFFFFFFFF#64⟩,
    ⟨.generate,    0x0200000000000000#64, 0xFFFFFFFF00000000#64⟩,
    ⟨.generateAi,  0x0300000000000000#64, 0xFF00FFFF00000000#64⟩ ]

/-- The header matches the row (R62). -/
def OpRow.hits (r : OpRow) (h : BitVec 64) : Bool := (h &&& r.mask) == r.bits

/-- `decode(H)`: the row `H` matches, `none` for `ILLEGAL` (R63, R66). Total on all 2^64 headers. -/
def decodeHeader (h : BitVec 64) : Option Mnemonic := (opRows.find? (·.hits h)).map (·.op)

/-! ## Decoding a packet (R60, R63, R64) -/

/-- Why a byte string is no legal packet. -/
inductive DecodeError where
  /-- Fewer than 8 bytes: no header yet (R60). -/
  | short
  /-- Operand bytes are missing: fewer than `8 + ALEN + BLEN` bytes (R60). -/
  | incomplete
  /-- More than `8 + ALEN + BLEN` bytes: not one packet (R60, R68). -/
  | trailing
  /-- The header matches no row of the opcode map (R66): the block answers ILLEGAL_COMMAND. -/
  | illegalHeader
  deriving DecidableEq, Repr

/-- The command of a whole packet whose header is of row `m` (R64): `OPA` follows the header, `OPB` follows `OPA`. -/
def assembleOperands (m : Mnemonic) (p : Bytes) : Instr :=
  let h := headerWord p
  let alen := (hdrAlen h).toNat
  let blen := (hdrBlen h).toNat
  match m with
  | .instantiate => .instantiate ((p.drop 8).take alen) ((p.drop (8 + alen)).take blen)
  | .generate => .generate (hdrLen h)
  | .generateAi => .generateAi (hdrLen h) ((p.drop 8).take alen)

/-- Decode one packet. Total on any bytes; a packet that is not whole, or whose header is illegal, is rejected by name. -/
def decode (p : Bytes) : Except DecodeError Instr :=
  if p.length < 8 then .error .short
  else if p.length < packetLength (headerWord p) then .error .incomplete
  else if packetLength (headerWord p) < p.length then .error .trailing
  else match decodeHeader (headerWord p) with
    | none => .error .illegalHeader
    | some m => .ok (assembleOperands m p)

/-- Split the first packet off a stream of bytes: `8 + ALEN + BLEN` bytes, whatever else its header says (R68).
`none` while the packet is not there whole (R34). -/
def frame (bs : Bytes) : Option (Bytes × Bytes) :=
  if bs.length < 8 then none
  else if bs.length < packetLength (headerWord bs) then none
  else some (bs.take (packetLength (headerWord bs)), bs.drop (packetLength (headerWord bs)))

/-! ## Encoding (R60, R61, R62) -/

/-- Place the header fields as R61 says; `RSV` is `00`. An operand longer than 255 bytes, which no header can announce and
for which R74 says nothing, has its length taken modulo 256 here (DESIGN CHOICE, log entry 16; unsafe for claims about
the packet of such a line): `Instr.wellFormed` excludes it. -/
def buildHeader (op : Byte) (alen blen : Nat) (len : BitVec 32) : BitVec 64 :=
  op ++ BitVec.ofNat 8 alen ++ BitVec.ofNat 8 blen ++ (0x00#8 : Byte) ++ len

/-- The header of a command (R61, R62); fields a row does not use are zero. -/
def Instr.header : Instr → BitVec 64
  | .instantiate ent pers => buildHeader 0x01#8 ent.length pers.length 0#32
  | .generate len => buildHeader 0x02#8 0 0 len
  | .generateAi len add => buildHeader 0x03#8 add.length 0 len

/-- The byte operands of a command in packet order (R60, R64). -/
def Instr.operands : Instr → Bytes
  | .instantiate ent pers => ent ++ pers
  | .generate _ => []
  | .generateAi _ add => add

/-- The packet of a command: 8 header bytes, byte 0 most significant (R40), then `OPA`, then `OPB` (R60). -/
def encode (i : Instr) : Bytes := beBytes 8 i.header.toNat ++ i.operands

/-! ## Words of the opcode table -/

/-- The packet whose bits are `w`, numbered as opcode_table.json numbers them: the first 64 bits are `H`, which the
packet holds byte 0 most significant (R40, R61), and operand byte `j` is bits `64 + 8 j` and up. Every bit from
`nbits` on is zero, and the packet has the `8 + ALEN + BLEN` bytes its header asks for (DEDUCED, log entry 12; safe). -/
def packetOfWord (nbits w : Nat) : Bytes :=
  let w := w % 2 ^ nbits
  let h := w % 2 ^ 64
  let n := packetLength (BitVec.ofNat 64 h) - 8
  beBytes 8 h ++ (List.range n).map fun j => BitVec.ofNat 8 (w / 2 ^ (64 + 8 * j))

/-- The command the decoder reads from a word of the opcode table; `none` where it refuses. -/
def decodeTableWord (nbits w : Nat) : Option Instr := (decode (packetOfWord nbits w)).toOption

end Sys2Proof
end

