-- ==== Sys2Proof/Machine/State.lean ====
section
/-! DEFINITION. The state of the machine: the registers of 10_state.md (R10 to R27), the request the cipher agent
holds (R25), what the environment offers and when it moves (R30, R33, R175), and the record of the transfers made. -/

namespace Sys2Proof.Machine

/-- `PHASE`, the sequencer's position: the micro-step performed next (R15, R71). -/
inductive Phase where
  | idle | fill | inc | req | wait | emit | mix | resp
  deriving DecidableEq, Repr

/-- `STAGE`: which fill of the current command is in progress (R16, R72). -/
inductive Stage where
  /-- `S_INST`: the Update of INSTANTIATE. -/
  | inst
  /-- `S_PRE`: the Update before the output, in GENERATE_AI. -/
  | pre
  /-- `S_GEN`: the output fill. -/
  | gen
  /-- `S_POST`: the Update after the output. -/
  | post
  deriving DecidableEq, Repr

/-- The three synchronous errors (R140). -/
inductive ErrorCause where
  | illegalCommand
  | notInstantiated
  | invalidSeedLength
  deriving DecidableEq, Repr

/-- The payload of a CREQ transfer (R73): the complete key and one block. -/
structure Request where
  key   : Bytes
  block : Bytes
  deriving DecidableEq, Repr

/-- The payload of an OUT transfer (R70): `DATA`, `NB`, `LAST`. -/
structure Beat where
  data : Bytes
  nb   : BitVec 5
  last : Bool
  deriving DecidableEq, Repr

/-- What can be seen at the ports: the transfers of the five channels (R32), a reading of the two status wires (R23)
and the assertion of `rst_i` (R160). -/
inductive Event where
  | cmd (packet : Bytes)
  | creq (r : Request)
  | crsp (block : Bytes)
  | out (b : Beat)
  | rsp (code : BitVec 4)
  | status (instO idleO : Bool)
  | rst
  deriving DecidableEq, Repr

/-- The channels whose environment side can delay a transfer (R33, R128). CMD is not among them: the host delays a
packet by not offering it. -/
inductive Channel where
  | out | rsp | creq | crsp
  deriving DecidableEq, Repr

/-- The reset input `rst_i` (R160), as far as the block is concerned. -/
inductive ResetInput where
  /-- Not asserted: the block runs. -/
  | inactive
  /-- Asserted: the block is held in the reset state. -/
  | asserted
  /-- The moment of release: the block is still in the reset state and drives no `valid` or `ready` yet. -/
  | released
  deriving DecidableEq, Repr

/-- What the host and the cipher may do (the rows of R175). -/
inductive EnvMove where
  /-- No agent acts at this moment (R172: an enabled micro-step may happen at any moment). -/
  | pause
  /-- The host puts bytes on CMD, behind those it already offers (R34, R175). -/
  | offer (bytes : Bytes)
  /-- The environment begins or ceases to take part in transfers of a channel (R33, R128, R175). -/
  | setReady (c : Channel) (b : Bool)
  /-- The host reads `inst_o` and `idle_o` (R23, R175). -/
  | readStatus
  /-- `rst_i` is asserted (R129, R160): for this moment only, or held until it is released. -/
  | reset (held : Bool)
  /-- A held `rst_i` is released (R160). -/
  | releaseReset
  deriving DecidableEq, Repr

/-- Who acts next: the sequencer performs one micro-step, or the environment makes one move (R30). -/
inductive Move where
  | sequencer
  | env (m : EnvMove)
  deriving DecidableEq, Repr

/-- The whole state. The registers come first, each under the spec's name; the rest is the two other agents' side
(the host and the cipher, R30) and the record of what passed the ports, which no step reads. -/
structure State where
  /-- `KS`: the configuration the block was built with (R5, R6). No step changes it (DESIGN CHOICE that it is
  a field, log entry 1; safe). -/
  ks        : KeySize
  /-- `KEY`, `KS` bytes (R10). -/
  key       : Bytes
  /-- `V`, the counter, 16 bytes, `v[0]` most significant (R11). -/
  v         : Bytes
  /-- `INST`: a generator state exists (R14). -/
  inst      : Bool
  /-- `PHASE` (R15). -/
  phase     : Phase
  /-- `STAGE` (R16). -/
  stage     : Stage
  /-- `REM`: bytes the current fill has still to produce (R17). -/
  rem       : BitVec 32
  /-- `LENR`: the requested output length (R18). -/
  lenr      : BitVec 32
  /-- `PD`: the provided data, `SEED` bytes (R19). -/
  pd        : Bytes
  /-- `PDV`: provided data is present (R19). -/
  pdv       : Bool
  /-- `TEMP`: the scratch, `SEED` bytes (R20). -/
  temp      : Bytes
  /-- `BLKR`: the output block in flight, 16 bytes (R21). -/
  blkr      : Bytes
  /-- `RCODE`: the response code to deliver (R22). -/
  rcode     : BitVec 4
  /-- `rst_i` (R32, R160). Not a register: an input, which R160 has asserted, held and released (its three values are a DESIGN
  CHOICE, log entry 13; safe). -/
  rstI      : ResetInput
  /-- The request the cipher holds and owes an answer to (R25, R46). -/
  inflight  : Option Request
  /-- The bytes the host offers on CMD and the block has not taken (R34; DESIGN CHOICE, log entry 5; safe). -/
  cmd       : Bytes
  /-- Whether the host accepts beats on OUT (R33, R167; this field and the next four: DESIGN CHOICE,
  log entry 6; safe). -/
  outReady  : Bool
  /-- Whether the host accepts responses on RSP (R33, R167). -/
  rspReady  : Bool
  /-- Whether the cipher accepts requests on CREQ (R33, R46). -/
  creqReady : Bool
  /-- Whether the cipher delivers the answer it owes on CRSP (R33, R46). -/
  crspValid : Bool
  /-- Who moves in the steps to come, first one first; after the last one every step is the sequencer's. -/
  moves     : List Move
  /-- The transfers made so far, oldest first. Nothing reads it (DESIGN CHOICE, log entry 10; safe). -/
  trace     : List Event
  deriving DecidableEq, Repr

/-- The block of configuration `ks` at the moment reset is released (R26, R160): every register at its reset value, no
channel driven yet (DESIGN CHOICE that this is the moment shown, log entry 13; safe), no request in flight, nothing
offered on CMD (R162); the environment takes part in every transfer until a move says otherwise. -/
def State.resetOf (ks : KeySize) : State where
  ks        := ks
  key       := zeros ks.bytes
  v         := zeros 16
  inst      := false
  phase     := .idle
  stage     := .inst
  rem       := 0
  lenr      := 0
  pd        := zeros ks.seed
  pdv       := false
  temp      := zeros ks.seed
  blkr      := zeros 16
  rcode     := 0
  rstI      := .released
  inflight  := none
  cmd       := []
  outReady  := true
  rspReady  := true
  creqReady := true
  crspValid := true
  moves     := []
  trace     := []

/-- The machine right after reset (R26), built for AES-128 (DESIGN CHOICE, log entry 1); `State.resetOf` gives the other
two configurations. -/
def State.reset : State := State.resetOf .aes128

/-- Why the machine stops. -/
inductive Fault where
  /-- No rule of 46_sequencer.md applies: the registers stand in a combination that R124 says never occurs, and that a
  model is to treat as stuck (93_implementation_defined.md U11), or outside the reset state at a moment of `rst_i` at
  which R160 puts them in it (log entry 9). Raised by the sequencer's turn only. Safe: the
  machine goes on from no such state, and none is reached from reset. -/
  | noRuleApplies
  deriving DecidableEq, Repr

/-- Why an instruction has no meaning. -/
inductive Refusal where
  /-- The instruction is not modelled. No arm of `exec` raises it now. Safe. -/
  | notModelled (mnemonic : String)
  deriving DecidableEq, Repr

end Sys2Proof.Machine
end

