-- ==== Sys2Proof/Machine/Ops.lean ====
section
/-! DEFINITION. The shared operations: reading and writing byte strings (R8, R31, R38), INCR (R80), the encodings of the
sequencer registers (R69, R71, R72), raising an error (R144), delivering a response (R123, R146) and reset (R129). -/

namespace Sys2Proof.Machine

/-! ## Byte strings (R7, R8, R38) -/

/-- `MemRead(space, off, n)`: the `n` bytes at offset `off` (R8). -/
def memRead (space : Bytes) (off n : Nat) : Bytes := (space.drop off).take n

/-- `MemWrite(space, off, n, s)`: the bytes of `s` at offset `off`, the others unchanged (R8). -/
def memWrite (space : Bytes) (off : Nat) (s : Bytes) : Bytes :=
  space.take off ++ s ++ space.drop (off + s.length)

/-- `a ⊕ b`: byte by byte at equal offsets (R7, R38). -/
def xorBytes (a b : Bytes) : Bytes := List.zipWith (· ^^^ ·) a b

/-- The first `n` bytes of a block followed by zeros up to 16 bytes (R21, R70). -/
def padBlock (block : Bytes) (n : Nat) : Bytes := block.take n ++ zeros (16 - n)

/-! ## INCR (R80) -/

/-- The carry chain of R80 on bytes given least significant first: add one to a byte; a byte that wraps to 0 passes the
carry on, any other byte ends the chain, and the carry out of the last byte is dropped. -/
def incrChain : Bytes → Bytes
  | [] => []
  | b :: bs => if b + 1 = 0 then 0 :: incrChain bs else (b + 1) :: bs

/-- INCR: add one to the counter, big-endian, from the last byte towards the first (R80). -/
def incr (v : Bytes) : Bytes := (incrChain v.reverse).reverse

/-! ## Encodings of registers -/

/-- The 3-bit values of `PHASE` (R71). -/
def Phase.code : Phase → BitVec 3
  | .idle => 0 | .fill => 1 | .inc => 2 | .req => 3 | .wait => 4 | .emit => 5 | .mix => 6 | .resp => 7

/-- The 2-bit values of `STAGE` (R72). -/
def Stage.code : Stage → BitVec 2
  | .inst => 0 | .pre => 1 | .gen => 2 | .post => 3

/-- The response code OK (R69). -/
abbrev codeOk : BitVec 4 := 0

/-- The response codes of the errors (R69, R140). -/
def ErrorCause.code : ErrorCause → BitVec 4
  | .illegalCommand => 1
  | .notInstantiated => 2
  | .invalidSeedLength => 3

/-! ## Loop control (R17, R120, R121) -/

/-- `SEED` as a value of the 32-bit register `REM` (R17). -/
def seedWord (ks : KeySize) : BitVec 32 := BitVec.ofNat 32 ks.seed

/-- `min(16, REM)`: the bytes the current block contributes (R120, R121). -/
def State.chunk (s : State) : Nat := min 16 s.rem.toNat

/-- `REM - min(16, REM)` (R120, R121). -/
def State.remNext (s : State) : BitVec 32 := s.rem - BitVec.ofNat 32 s.chunk

/-! ## The record of transfers -/

/-- Note one transfer in the record. -/
def State.note (s : State) (e : Event) : State := { s with trace := s.trace ++ [e] }

/-! ## Errors, responses and reset -/

/-- `raise X` (R144): `RCODE` takes the code of `X` and the sequencer goes to `RESP`; no other register changes.
This is the one way an error is entered. -/
def State.raiseError (s : State) (c : ErrorCause) : State := { s with rcode := c.code, phase := .resp }

/-- The return from an error and the end of every command (R123, R146): `RCODE` is delivered on RSP, `PD`, `PDV`, `LENR`
and `RCODE` are cleared, and the sequencer is idle. -/
def State.deliverResponse (s : State) : State :=
  State.note
    { s with pd := zeros s.ks.seed, pdv := false, lenr := 0, rcode := codeOk, phase := .idle }
    (.rsp s.rcode)

/-- `rst_i` (R129, R160, R162): every register takes its reset value, `rst_i` stays asserted when it is held and is
released at once when it is not (log entry 13), the environment resets the cipher's interface with the block, and the
host drops what it was offering. The record, the readiness of the environment and its later moves are not the block's
and stay (DESIGN CHOICE, log entry 8; unsafe for claims about packets queued before a reset). -/
def State.applyReset (s : State) (held : Bool) : State :=
  State.note
    { State.resetOf s.ks with
      rstI := if held then .asserted else .released,
      outReady := s.outReady, rspReady := s.rspReady, creqReady := s.creqReady, crspValid := s.crspValid,
      moves := s.moves, trace := s.trace }
    .rst

end Sys2Proof.Machine
end

