-- ==== Sys2Proof/Machine/Operands.lean ====
section
/-! DEFINITION. Where a command and its operands come from: taking the next packet off CMD (R34, R68), the operand length
check (R141) and the operand reads (R35, R64). -/

namespace Sys2Proof.Machine

/-- The CMD transfer (R34, R68): the next packet, whole, is taken off the stream and noted; `none` while the host has not
offered a whole packet. The packet is consumed whatever it holds. -/
def State.fetch (s : State) : Option (Except DecodeError Instr × State) :=
  match frame s.cmd with
  | none => none
  | some (p, rest) => some (decode p, State.note { s with cmd := rest } (.cmd p))

/-- The length check of R141: an operand in use has exactly `SEED` bytes. -/
def seedSized (ks : KeySize) (op : Bytes) : Bool := op.length == ks.seed

/-- `MemRead(OP, 0, SEED)` of an operand (R35). -/
def readOperand (ks : KeySize) (op : Bytes) : Bytes := memRead op 0 ks.seed

/-- The seed of INSTANTIATE: `entropy XOR personalization`, byte-wise (R100 step 2, R116). -/
def seedOf (ks : KeySize) (ent pers : Bytes) : Bytes := xorBytes (readOperand ks ent) (readOperand ks pers)

/-- What a command leaves in `PD` when it brings no provided data (R116, R123). -/
def noProvidedData (ks : KeySize) : Bytes := zeros ks.seed

end Sys2Proof.Machine
end

