-- ==== Sys2Proof/Machine/Generate.lean ====
section
/-! DEFINITION. GENERATE and GENERATE_AI (45_generate.md R105 to R111; 46_sequencer.md R116). -/

namespace Sys2Proof.Machine

/-- GENERATE `len`, accepted in phase `IDLE` (R105, R116): NOT_INSTANTIATED when `INST = 0`; otherwise no provided data,
and the output fill of `LEN` bytes is started (`STAGE = S_GEN`). The micro-steps that follow deliver the output and make
the one Update after it (R107, R117 to R123); what they amount to is `cmdGenerate` (R125). -/
def execGenerate (len : BitVec 32) (s : State) : Host.Outcome State Fault Refusal :=
  if s.inst then
    .next { s with
      pd := noProvidedData s.ks, pdv := false,
      stage := .gen, rem := len, lenr := len, rcode := codeOk, phase := .fill }
  else .next (s.raiseError .notInstantiated)

/-- GENERATE_AI `len`, `add`, accepted in phase `IDLE` (R106, R116): NOT_INSTANTIATED when `INST = 0`, then
INVALID_SEED_LENGTH when `ALEN` is not `SEED` (R145); otherwise the additional input is kept in `PD` for both Updates
(R108), `LEN` in `LENR`, and the Update before the output is started (`STAGE = S_PRE`). The micro-steps that follow do
the rest (R117 to R123); what they amount to is `cmdGenerateAi` (R125). -/
def execGenerateAi (len : BitVec 32) (add : Bytes) (s : State) : Host.Outcome State Fault Refusal :=
  if s.inst then
    if seedSized s.ks add then
      .next { s with
        pd := readOperand s.ks add, pdv := true,
        stage := .pre, rem := seedWord s.ks, lenr := len, rcode := codeOk, phase := .fill }
    else .next (s.raiseError .invalidSeedLength)
  else .next (s.raiseError .notInstantiated)

end Sys2Proof.Machine
end

