-- ==== Sys2Proof/Machine/Instantiate.lean ====
section
/-! DEFINITION. INSTANTIATE (44_instantiate.md R100 to R104; 46_sequencer.md R116). -/

namespace Sys2Proof.Machine

/-- INSTANTIATE `ent`, `pers`, accepted in phase `IDLE` (R116): the length check of R141; then step 1 of R100, the zero
seed (`KEY` and `V` zero, `INST` cleared), and step 2, the XOR of the operands kept in `PD`; the Update of step 3 is
started (`STAGE = S_INST`, `REM = SEED`). The micro-steps that follow carry it to the response (R117 to R123); what they
amount to is the command-level function `cmdInstantiate` (R100, R125). -/
def execInstantiate (ent pers : Bytes) (s : State) : Host.Outcome State Fault Refusal :=
  if seedSized s.ks ent && seedSized s.ks pers then
    .next { s with
      inst := false, key := zeros s.ks.bytes, v := zeros 16,
      pd := seedOf s.ks ent pers, pdv := true,
      stage := .inst, rem := seedWord s.ks, lenr := 0, rcode := codeOk, phase := .fill }
  else .next (s.raiseError .invalidSeedLength)

end Sys2Proof.Machine
end

