-- ==== Sys2Proof/Machine/Dispatch.lean ====
section
/-! DEFINITION. One arm for each command: what accepting it does (46_sequencer.md R116). It does not look at `PHASE`:
the step calls it in phase `IDLE` only (DESIGN CHOICE, log entries 4 and 11; safe). -/

namespace Sys2Proof.Machine

def exec (i : Instr) (s : State) : Host.Outcome State Fault Refusal :=
  match i with
  | .instantiate ent pers => Sys2Proof.Machine.execInstantiate ent pers s
  | .generate len => Sys2Proof.Machine.execGenerate len s
  | .generateAi len add => Sys2Proof.Machine.execGenerateAi len add s

end Sys2Proof.Machine
end

