-- ==== Sys2Proof/Machine/Flags.lean ====
section
/-! DEFINITION. The flag `INST` (R14), the two status wires (R23), and the wires the block drives on its channels (R33,
R70, R73, R121). There are no other flags: INCR keeps no carry (R14, R82). -/

namespace Sys2Proof.Machine

/-- `inst_o` (R23). -/
def State.instO (s : State) : Bool := s.inst

/-- `idle_o`: 1 when `PHASE = IDLE` (R23). -/
def State.idleO (s : State) : Bool := s.phase == .idle

/-- The block drives the wire that belongs to phase `p`: in that phase (R33), and not while `rst_i` is asserted nor at the
moment it is released (R160). -/
def State.drives (s : State) (p : Phase) : Bool := s.rstI == .inactive && s.phase == p

/-- `ready` of CMD: only in phase `IDLE` (R33). -/
def State.cmdReady (s : State) : Bool := s.drives .idle

/-- `valid` of OUT: only in `EMIT` (R33). -/
def State.outValid (s : State) : Bool := s.drives .emit

/-- `valid` of RSP: only in `RESP` (R33). -/
def State.rspValid (s : State) : Bool := s.drives .resp

/-- `valid` of CREQ: only in `REQ` (R33). -/
def State.creqValid (s : State) : Bool := s.drives .req

/-- `ready` of CRSP: only in `WAIT` (R33). -/
def State.crspReady (s : State) : Bool := s.drives .wait

/-- The payload offered on OUT (R70, R121): `DATA = BLKR`, `NB = min(16, REM)`, `LAST = 1` if `REM <= 16`. -/
def State.beat (s : State) : Beat :=
  { data := s.blkr, nb := BitVec.ofNat 5 s.chunk, last := decide (s.rem.toNat ≤ 16) }

/-- The payload offered on CREQ (R45, R73, R119): the complete current `KEY` and the current `V`. -/
def State.request (s : State) : Request := { key := s.key, block := s.v }

/-- The payload offered on RSP (R37, R123). -/
def State.response (s : State) : BitVec 4 := s.rcode

end Sys2Proof.Machine
end

