-- ==== Sys2Proof/Machine/Environment.lean ====
section
/-! DEFINITION. What the host and the cipher may do between two micro-steps (70_reset_and_hazards.md R160, R162, R175). -/

namespace Sys2Proof.Machine

/-- The environment begins or ceases to take part in the transfers of one channel (R33, R175). -/
def State.setReady (s : State) (c : Channel) (b : Bool) : State :=
  match c with
  | .out => { s with outReady := b }
  | .rsp => { s with rspReady := b }
  | .creq => { s with creqReady := b }
  | .crsp => { s with crspValid := b }

/-- A held `rst_i` is released (R160). Releasing what is not asserted is nothing. -/
def State.releaseReset (s : State) : State :=
  { s with rstI := if s.rstI = .asserted then .released else s.rstI }

/-- One move of the environment (R175). Only reset touches a register of the block. -/
def State.envMove (s : State) (m : EnvMove) : State :=
  match m with
  | .pause => s
  | .offer bytes => { s with cmd := s.cmd ++ bytes }
  | .setReady c b => s.setReady c b
  | .readStatus => s.note (.status s.instO s.idleO)
  | .reset held => s.applyReset held
  | .releaseReset => s.releaseReset

/-- The host and the cipher take part in every transfer, and every step is the sequencer's. -/
abbrev State.cooperative (s : State) : Prop :=
  s.outReady = true ∧ s.rspReady = true ∧ s.creqReady = true ∧ s.crspValid = true ∧ s.moves = []

end Sys2Proof.Machine
end

