-- ==== Sys2Proof/Machine/Reachable.lean ====
section
/-! DEFINITION. The combinations of registers in which a rule of the sequencer applies (R27, R124, R160). -/

namespace Sys2Proof.Machine

/-- The idle invariant (R27): the working registers hold their reset values. -/
def State.workingClear (s : State) : Bool :=
  decide (s.rem = 0 ∧ s.lenr = 0 ∧ s.pd = zeros s.ks.seed ∧ s.pdv = false ∧ s.temp = zeros s.ks.seed ∧
    s.blkr = zeros 16 ∧ s.rcode = codeOk)

/-- What R124 says of `PHASE` together with `STAGE`, `REM` and the working registers. -/
def State.phaseOk (s : State) : Bool :=
  match s.phase with
  | .idle => s.workingClear
  | .fill => true
  | .inc | .req | .wait => decide (s.rem ≠ 0)
  | .emit => decide (s.stage = .gen ∧ s.rem ≠ 0)
  | .mix => decide (s.stage ≠ .gen ∧ s.rem = 0)
  | .resp => decide (s.rem = 0 ∧ s.temp = zeros s.ks.seed ∧ s.blkr = zeros 16)

/-- The sequencer is inside a command: neither idle nor delivering a response. -/
def State.inCommand (s : State) : Bool := decide (s.phase ≠ .idle ∧ s.phase ≠ .resp)

/-- What R124 says of `STAGE` together with `INST`, `PDV` and `LENR` while a command runs. -/
def State.stageOk (s : State) : Bool :=
  !s.inCommand ||
    (if s.stage = .inst then decide (s.inst = false ∧ s.pdv = true ∧ s.lenr = 0) else s.inst)

/-- The length of the fill in progress: `LENR` in stage `S_GEN`, `SEED` in the others (R17). -/
def State.fillTotal (s : State) : Nat := if s.stage = .gen then s.lenr.toNat else s.ks.seed

/-- What R124 says of `REM` against the length of the fill in progress. The length less `REM` is a multiple of 16 as long
as the fill is not complete; at `REM = 0` it is the length itself, which need be no multiple of 16 (DEDUCED: the trace
of R127 has `LENR = 20` and `REM = 0` in stage `S_GEN`; log entry 3; safe). -/
def State.remOk (s : State) : Bool :=
  decide (s.rem.toNat ≤ s.fillTotal ∧ (s.rem = 0 ∨ (s.fillTotal - s.rem.toNat) % 16 = 0))

/-- A response code other than OK is held in phase `RESP` only (R124). -/
def State.rcodeOk (s : State) : Bool := decide (s.rcode = codeOk ∨ s.phase = .resp)

/-- While `rst_i` is asserted, and at the moment it is released, every register holds its reset value (R160; the working
registers by R27). -/
def State.resetOk (s : State) : Bool :=
  decide (s.rstI = .inactive ∨
    (s.phase = .idle ∧ s.stage = .inst ∧ s.inst = false ∧ s.key = zeros s.ks.bytes ∧ s.v = zeros 16))

/-- The conditions of R124 (with R27 and R160): the states in which the sequencer has a step (DEDUCED, log entry 9;
safe). -/
def State.placed (s : State) : Bool := s.phaseOk && s.stageOk && s.remOk && s.rcodeOk && s.resetOk

end Sys2Proof.Machine
end

