-- ==== Sys2Proof/Machine/Sequencer.lean ====
section
/-! DEFINITION. The micro-steps of a command in progress (46_sequencer.md R117 to R123), one definition for each phase. The
micro-step of phase `IDLE` (R116) accepts a command and stands in Step.lean, over the meanings of the commands.
A micro-step that needs a channel transfer leaves the state as it is while the other side takes no part (R128). -/

namespace Sys2Proof.Machine

/-- Phase `FILL`: loop control on `REM` alone (R117). -/
def microFill (s : State) : State :=
  if s.rem ≠ 0 then { s with phase := .inc }
  else if s.stage = .gen then { s with stage := .post, rem := seedWord s.ks }
  else { s with phase := .mix }

/-- Phase `INC`: the counter increment (R118). -/
def microInc (s : State) : State := { s with v := incr s.v, phase := .req }

/-- Phase `REQ`: offer (`KEY`, `V`) to the cipher (R119); the cipher holds the request from the transfer on (R25). -/
def microReq (s : State) : State :=
  if s.creqReady then State.note { s with phase := .wait, inflight := some s.request } (.creq s.request)
  else s

/-- Take the cipher's answer `r` (R120): in the output fill, the bytes wanted go to `BLKR` and the tail is dropped; in an
Update, they are the next piece of the scratch, at offset `SEED - REM`. -/
def State.takeAnswer (s : State) (r : Bytes) : State :=
  let n := s.chunk
  if s.stage = .gen then { s with inflight := none, blkr := padBlock r n, phase := .emit }
  else { s with
    inflight := none, temp := memWrite s.temp (s.ks.seed - s.rem.toNat) (r.take n), rem := s.remNext, phase := .fill }

/-- Phase `WAIT`: the CRSP transfer (R120). The answer is `E(key, block)` of the request the cipher holds (R46); with no
request there is no answer (U10). -/
def microWait (E : Cipher) (s : State) : State :=
  match s.inflight with
  | none => s
  | some q =>
    if s.crspValid then State.note (s.takeAnswer (E q.key q.block).toList) (.crsp (E q.key q.block).toList)
    else s

/-- Phase `EMIT`: deliver an output beat (R121). -/
def microEmit (s : State) : State :=
  if s.outReady then State.note { s with rem := s.remNext, blkr := zeros 16, phase := .fill } (.out s.beat)
  else s

/-- Steps 2 and 3 of an Update (R97, R98, R122): XOR the provided data in when it is present, split the scratch into the
new `KEY` and the new `V`, clear the scratch. -/
def State.mixSplit (s : State) : State :=
  let t := if s.pdv then xorBytes s.temp s.pd else s.temp
  { s with key := memRead t 0 s.ks.bytes, v := memRead t s.ks.bytes 16, temp := zeros s.ks.seed }

/-- Phase `MIX`: the XOR and the split, then the hand-over to the next stage (R122). `MIX` is never entered in stage
`S_GEN` (R124); there no rule applies. -/
def microMix (s : State) : Host.Outcome State Fault Refusal :=
  match s.stage with
  | .inst => .next { s.mixSplit with inst := true, phase := .resp }
  | .pre => .next { s.mixSplit with stage := .gen, rem := s.lenr, phase := .fill }
  | .gen => .fault .noRuleApplies
  | .post => .next { s.mixSplit with phase := .resp }

/-- Phase `RESP`: deliver the response (R123). -/
def microResp (s : State) : State := if s.rspReady then s.deliverResponse else s

/-- The micro-step of a command in progress, by its phase (R115, R117 to R123). Phase `IDLE` has none of these: the
argument `accept` is what R116 does there. -/
def microStep (E : Cipher) (accept : Host.Outcome State Fault Refusal) (s : State) : Host.Outcome State Fault Refusal :=
  match s.phase with
  | .idle => accept
  | .fill => .next (microFill s)
  | .inc => .next (microInc s)
  | .req => .next (microReq s)
  | .wait => .next (microWait E s)
  | .emit => .next (microEmit s)
  | .mix => microMix s
  | .resp => .next (microResp s)

end Sys2Proof.Machine
end

