-- ==== Sys2Proof/Machine/Step.lean ====
section
/-! DEFINITION. The step: the environment's move, or one micro-step of the sequencer (46_sequencer.md). -/

namespace Sys2Proof.Machine

/-- Phase `IDLE` (R116): with a whole packet on CMD, take it and do what the command does at acceptance, or raise
ILLEGAL_COMMAND when its header is illegal (R142); without one, wait. While `rst_i` is asserted `ready` of CMD is not
driven (R160) and the block stays in reset; its turn at the moment of release ends that moment (DESIGN CHOICE, log
entry 13; safe). -/
def acceptCommand (s : State) : Host.Outcome State Fault Refusal :=
  match s.rstI with
  | .asserted => .next s
  | .released => .next { s with rstI := .inactive }
  | .inactive =>
    match s.fetch with
    | none => .next s
    | some (.error _, t) => .next (t.raiseError .illegalCommand)
    | some (.ok i, t) => exec i t

/-- The sequencer's turn: the one rule of the current phase, and none in a state outside R124 (U11) and R160. -/
def sequencerStep (E : Cipher) (s : State) : Host.Outcome State Fault Refusal :=
  if s.placed then microStep E (acceptCommand s) s else .fault .noRuleApplies

/-- One step with the cipher `E`: the next mover of `moves` acts; when none is listed, the sequencer does. -/
def stepWith (E : Cipher) (s : State) : Host.Outcome State Fault Refusal :=
  match s.moves with
  | [] => sequencerStep E s
  | .sequencer :: ms => sequencerStep E { s with moves := ms }
  | .env m :: ms => .next (State.envMove { s with moves := ms } m)

/-- One step of the machine, with the external cipher of Config. -/
def step (s : State) : Host.Outcome State Fault Refusal := stepWith Config.E s

/-- The machine with the packet of an opcode-table word next on CMD, the sequencer idle (R27), out of reset
and moving next: the very next step accepts that packet. Stands for a host that offers the packet (DESIGN CHOICE, log entry 7; safe). -/
def State.withFetchWord (s : State) (nbits w : Nat) : State :=
  { s with
    phase := .idle, rem := 0, lenr := 0, pd := zeros s.ks.seed, pdv := false, temp := zeros s.ks.seed,
    blkr := zeros 16, rcode := codeOk, rstI := .inactive, inflight := none, cmd := packetOfWord nbits w, moves := [] }

end Sys2Proof.Machine
end

