-- ==== Sys2Proof/Machine/Assembler.lean ====
section
/-! DEFINITION. The textual form of commands and the host-side pseudo-commands (30_encoding.md R74, R75). This is no part of
the block (92_eei_decisions.md D20): it says which packets a written line stands for, and reads no text (DESIGN CHOICE, log entry 14; safe). -/

namespace Sys2Proof.Machine

/-- One line of R74, with the pseudo-command INSTANTIATE without `pers=` of R75 and `RAW`. -/
inductive AsmLine where
  | instantiate (ent : Bytes) (pers : Option Bytes)
  | generate (len : BitVec 32)
  | generateAi (len : BitVec 32) (add : Bytes)
  | raw (packet : Bytes)
  deriving DecidableEq, Repr

/-- The packet of a line (R74, R75): `ALEN` and `BLEN` are the lengths of the operands as written, and a missing `pers=`
stands for `SEED` zero bytes. R74 does not say what is emitted for an operand longer than 255 bytes: here the header takes its
length modulo 256 and all its bytes follow (DESIGN CHOICE, log entry 16; unsafe). -/
def assemble (ks : KeySize) : AsmLine → Bytes
  | .instantiate ent pers => encode (.instantiate ent (pers.getD (zeros ks.seed)))
  | .generate len => encode (.generate len)
  | .generateAi len add => encode (.generateAi len add)
  | .raw p => p

/-- A generate call of the fixture procedure (R75): GENERATE_AI when the additional input is non-empty, else GENERATE. -/
def fixtureCall (len : BitVec 32) (add : Bytes) : AsmLine :=
  if add = [] then .generate len else .generateAi len add

/-- The pseudo-command `FIXTURE(ent, pers, add1, add2, n)` (R75). -/
def fixture (ent pers add1 add2 : Bytes) (n : BitVec 32) : List AsmLine :=
  [.instantiate ent (some pers), fixtureCall n add1, fixtureCall n add2]

/-- One hexadecimal digit. -/
def hexDigit (n : Nat) : Char :=
  Char.ofNat (if n < 10 then 48 + n else 87 + n)

/-- `<hex>`: two digits a byte, first byte first (R74). -/
def hexChars (s : Bytes) : List Char := s.flatMap fun b => [hexDigit (b.toNat / 16), hexDigit (b.toNat % 16)]

/-- The text of a line as R74 writes it, as characters. -/
def AsmLine.text : AsmLine → List Char
  | .instantiate ent none => "INSTANTIATE  ent=".toList ++ hexChars ent
  | .instantiate ent (some pers) =>
    "INSTANTIATE  ent=".toList ++ hexChars ent ++ ", pers=".toList ++ hexChars pers
  | .generate len => "GENERATE     len=".toList ++ (Nat.toDigits 10 len.toNat)
  | .generateAi len add =>
    "GENERATE_AI  len=".toList ++ (Nat.toDigits 10 len.toNat) ++ ", add=".toList ++ hexChars add
  | .raw p => "RAW ".toList ++ hexChars p

end Sys2Proof.Machine
end

