-- ==== Sys2Proof/Machine/Command.lean ====
section
/-! DEFINITION. The command level (files 41 to 45): the internal operations NEXT_BLOCK, FILL and UPDATE and the three
commands as functions of (`KEY`, `V`, `INST`, the packet, `E`), each written from its pseudocode. The sequencer refines
this level (R125); the statements about a whole command are stated with it. -/

namespace Sys2Proof.Machine

/-- What NEXT_BLOCK or FILL yields: the keystream bytes, `V` afterwards, and the cipher requests made, in order. -/
structure Keystream where
  bytes    : Bytes
  v        : Bytes
  requests : List Request
  deriving DecidableEq, Repr

/-- NEXT_BLOCK (R85): increment the counter, then encrypt the new counter value. -/
def nextBlock (E : Cipher) (key v : Bytes) : Keystream :=
  let v' := incr v
  { bytes := (E key v').toList, v := v', requests := [⟨key, v'⟩] }

/-- The loop of FILL (R87): `k` full blocks. -/
def fillBlocks (E : Cipher) (key : Bytes) : Nat → Bytes → Keystream
  | 0, v => { bytes := [], v := v, requests := [] }
  | k + 1, v =>
    let b := nextBlock E key v
    let more := fillBlocks E key k b.v
    { bytes := b.bytes ++ more.bytes, v := more.v, requests := b.requests ++ more.requests }

/-- FILL(`n`) (R87): `n div 16` full blocks, then the prefix of one more block when `n mod 16` is not zero (R89). -/
def fill (E : Cipher) (key v : Bytes) (n : Nat) : Keystream :=
  let full := fillBlocks E key (n / 16) v
  if n % 16 = 0 then full
  else
    let b := nextBlock E key full.v
    { bytes := full.bytes ++ b.bytes.take (n % 16), v := b.v, requests := full.requests ++ b.requests }

/-- The generator state (R9) with the flag that says it exists (R14). -/
structure Generator where
  key  : Bytes
  v    : Bytes
  inst : Bool
  deriving DecidableEq, Repr

/-- What UPDATE yields: the new `KEY` and `V`, and the cipher requests made. -/
structure Rekeyed where
  key      : Bytes
  v        : Bytes
  requests : List Request
  deriving DecidableEq, Repr

/-- UPDATE(`pd`) (R95): `SEED` bytes of keystream, XORed with the provided data when present, split into `KEY` and `V`. -/
def update (ks : KeySize) (E : Cipher) (key v : Bytes) (pd : Option Bytes) : Rekeyed :=
  let f := fill E key v ks.seed
  let t := match pd with
    | some d => xorBytes f.bytes d
    | none => f.bytes
  { key := memRead t 0 ks.bytes, v := memRead t ks.bytes 16, requests := f.requests }

/-- What a command amounts to: the generator state afterwards, the output bytes, the response code, and the cipher requests
of the Update before the output, of the output fill, and of the Update that ends the command. -/
structure Effect where
  gen          : Generator
  output       : Bytes
  code         : BitVec 4
  preRequests  : List Request
  outRequests  : List Request
  postRequests : List Request
  deriving DecidableEq, Repr

/-- All cipher requests of a command, in order. -/
def Effect.requests (e : Effect) : List Request := e.preRequests ++ e.outRequests ++ e.postRequests

/-- `raise X` at the command level (R144): nothing changes, and the response carries the code. -/
def refuseCommand (g : Generator) (c : ErrorCause) : Effect :=
  { gen := g, output := [], code := c.code, preRequests := [], outRequests := [], postRequests := [] }

/-- INSTANTIATE (R100). -/
def cmdInstantiate (ks : KeySize) (E : Cipher) (ent pers : Bytes) (g : Generator) : Effect :=
  if seedSized ks ent && seedSized ks pers then
    let u := update ks E (zeros ks.bytes) (zeros 16) (some (seedOf ks ent pers))
    { gen := ⟨u.key, u.v, true⟩, output := [], code := codeOk,
      preRequests := [], outRequests := [], postRequests := u.requests }
  else refuseCommand g .invalidSeedLength

/-- Steps 2 and 3 of the generate procedure (R107): the output fill, then the unconditional Update. -/
def outputAndRekey (ks : KeySize) (E : Cipher) (key v : Bytes) (len : Nat) (add : Option Bytes)
    (pre : List Request) : Effect :=
  let f := fill E key v len
  let u := update ks E key f.v add
  { gen := ⟨u.key, u.v, true⟩, output := f.bytes, code := codeOk,
    preRequests := pre, outRequests := f.requests, postRequests := u.requests }

/-- GEN(`LEN`, `add`) (R107): an Update first when `add` is present, then the output, then an Update with the same `add`. -/
def generateProcedure (ks : KeySize) (E : Cipher) (key v : Bytes) (len : Nat) (add : Option Bytes) : Effect :=
  match add with
  | none => outputAndRekey ks E key v len none []
  | some a =>
    let u := update ks E key v (some a)
    outputAndRekey ks E u.key u.v len (some a) u.requests

/-- GENERATE (R105). -/
def cmdGenerate (ks : KeySize) (E : Cipher) (len : BitVec 32) (g : Generator) : Effect :=
  if g.inst then generateProcedure ks E g.key g.v len.toNat none
  else refuseCommand g .notInstantiated

/-- GENERATE_AI (R106). -/
def cmdGenerateAi (ks : KeySize) (E : Cipher) (len : BitVec 32) (add : Bytes) (g : Generator) : Effect :=
  if g.inst then
    if seedSized ks add then generateProcedure ks E g.key g.v len.toNat (some (readOperand ks add))
    else refuseCommand g .invalidSeedLength
  else refuseCommand g .notInstantiated

/-- The command-level meaning of a command. -/
def commandEffect (ks : KeySize) (E : Cipher) (i : Instr) (g : Generator) : Effect :=
  match i with
  | .instantiate ent pers => cmdInstantiate ks E ent pers g
  | .generate len => cmdGenerate ks E len g
  | .generateAi len add => cmdGenerateAi ks E len add g

/-- The command-level meaning of a packet: ILLEGAL_COMMAND comes before every other error (R145). -/
def packetEffect (ks : KeySize) (E : Cipher) (p : Bytes) (g : Generator) : Effect :=
  match decode p with
  | .error _ => refuseCommand g .illegalCommand
  | .ok i => commandEffect ks E i g

/-! ## How a command shows at the ports (R36, R51, R70) -/

/-- Beat `k` of an output of `dest.length` bytes (R36): `DEST[16k .. min(16k+16, LEN))`, unused lanes zero, `LAST` on the
final one. -/
def beatAt (dest : Bytes) (k : Nat) : Beat :=
  let n := min 16 (dest.length - 16 * k)
  { data := padBlock (memRead dest (16 * k) 16) n, nb := BitVec.ofNat 5 n, last := decide (dest.length ≤ 16 * k + 16) }

/-- The `ceil(LEN/16)` beats of an output (R36). -/
def beatsOf (dest : Bytes) : List Beat := (List.range ((dest.length + 15) / 16)).map (beatAt dest)

/-- The two transfers of one cipher request (R46). -/
def cipherEvents (E : Cipher) (r : Request) : List Event := [.creq r, .crsp (E r.key r.block).toList]

/-- The transfers of a command after the CMD transfer, in the order of R51. -/
def Effect.events (e : Effect) (E : Cipher) : List Event :=
  e.preRequests.flatMap (cipherEvents E) ++
  (List.zipWith (fun r b => cipherEvents E r ++ [.out b]) e.outRequests (beatsOf e.output)).flatten ++
  e.postRequests.flatMap (cipherEvents E) ++
  [.rsp e.code]

/-- The output bytes in a record of transfers (R36): the valid bytes of its beats, in order. -/
def destOf (trace : List Event) : Bytes :=
  trace.flatMap fun
    | .out b => b.data.take b.nb.toNat
    | _ => []

/-- The cipher requests in a record of transfers, in order. -/
def requestsOf (trace : List Event) : List Request :=
  trace.flatMap fun
    | .creq r => [r]
    | _ => []

/-- The response codes in a record of transfers, in order. -/
def responsesOf (trace : List Event) : List (BitVec 4) :=
  trace.flatMap fun
    | .rsp c => [c]
    | _ => []

/-- The transfers the host sees: all but those between the block and the cipher (R32). -/
def hostEvents (trace : List Event) : List Event :=
  trace.filter fun
    | .creq _ => false
    | .crsp _ => false
    | _ => true

/-- The packets in a record of transfers, in order. -/
def packetsOf (trace : List Event) : List Bytes :=
  trace.flatMap fun
    | .cmd p => [p]
    | _ => []

/-- The generator state of a machine state. -/
def State.generator (s : State) : Generator := { key := s.key, v := s.v, inst := s.inst }

/-! ## Counts (R126) and closed forms (R93, R96, R101, R105, R106) -/

/-- The micro-steps of a command that succeeds, from the CMD transfer to the RSP transfer, both included (R126). -/
def commandSteps (ks : KeySize) : Instr → Nat
  | .instantiate _ _ => 4 * ks.nu + 4
  | .generate len => 5 * ((len.toNat + 15) / 16) + 4 * ks.nu + 5
  | .generateAi len _ => 5 * ((len.toNat + 15) / 16) + 8 * ks.nu + 7

/-- The micro-steps of a packet (R126): two for one that ends in an error. -/
def packetSteps (ks : KeySize) (E : Cipher) (p : Bytes) (g : Generator) : Nat :=
  match decode p with
  | .error _ => 2
  | .ok i => if (commandEffect ks E i g).code = codeOk then commandSteps ks i else 2

/-- The stage a command that succeeds leaves (R122). -/
def stageLeft : Instr → Stage
  | .instantiate _ _ => .inst
  | .generate _ => .post
  | .generateAi _ _ => .post

/-- The stage a packet leaves: an error leaves it alone (R144). -/
def packetStage (ks : KeySize) (E : Cipher) (p : Bytes) (g : Generator) (st : Stage) : Stage :=
  match decode p with
  | .error _ => st
  | .ok i => if (commandEffect ks E i g).code = codeOk then stageLeft i else st

/-- The counter `k` increments after `v`: `bytes_16((be(V) + k) mod 2^128)` (R81, R93). -/
def counterPlus (v : Bytes) (k : Nat) : Bytes := beBytes 16 ((beNat v + k) % 2 ^ 128)

/-- `B_first ‖ B_(first+1) ‖ ...`, `count` blocks, with `B_k = E(KEY, bytes_16((be(V) + k) mod 2^128))` (R93). -/
def streamBytes (E : Cipher) (key v : Bytes) (first count : Nat) : Bytes :=
  (List.range count).flatMap fun k => (E key (counterPlus v (first + k))).toList

/-- The cipher transfers for the blocks `B_first`, `B_(first+1)`, ... (R51). -/
def exchanges (E : Cipher) (key v : Bytes) (first count : Nat) : List Event :=
  (List.range count).flatMap fun k => cipherEvents E ⟨key, counterPlus v (first + k)⟩

/-- The transfers of an output fill of the bytes `dest` (R51): for each beat, one cipher request, its answer, the beat. -/
def outputTransfers (E : Cipher) (key v dest : Bytes) : List Event :=
  (List.range ((dest.length + 15) / 16)).flatMap fun k =>
    cipherEvents E ⟨key, counterPlus v (1 + k)⟩ ++ [.out (beatAt dest k)]

end Sys2Proof.Machine
end

