-- ==== Sys2Proof/Safety.lean ====
section
/-! DEFINITION. What a safe state and a safe run are: the widths of the registers (R12), the reachable combinations (R124),
the one request in flight (R47), and a run that never stops. -/

namespace Sys2Proof.Machine

/-- The byte-string registers have their declared lengths (R10, R11, R12, R19, R20, R21). -/
abbrev State.widths (s : State) : Prop :=
  s.key.length = s.ks.bytes ∧ s.v.length = 16 ∧ s.pd.length = s.ks.seed ∧ s.temp.length = s.ks.seed ∧
    s.blkr.length = 16

/-- At most one request is outstanding, in phase `WAIT` only, and it is the current (`KEY`, `V`) (R25, R47). -/
abbrev State.inflightOk (s : State) : Prop :=
  s.inflight = if s.phase = .wait then some s.request else none

/-- `BLKR` is clear outside `EMIT` (R21), and no response code above 3 is ever held (R69). -/
abbrev State.latchesOk (s : State) : Prop :=
  (s.phase ≠ .emit → s.blkr = zeros 16) ∧ s.rcode.toNat ≤ 3

/-- The invariant: every reachable state has it (R12, R27, R47, R124, R160). -/
abbrev State.Inv (s : State) : Prop :=
  s.widths ∧ s.placed ∧ s.inflightOk ∧ s.latchesOk

/-- `n` steps with the cipher `E`, stopping at the first stop. -/
def runWith (E : Cipher) : Nat → State → Host.Outcome State Fault Refusal
  | 0, s => .next s
  | n + 1, s =>
    match stepWith E s with
    | .next t => runWith E n t
    | .fault r => .fault r
    | .refused r => .refused r

/-- The state is idle and out of reset, reachable in form, and host and cipher take part in every transfer: a command offered now is
accepted in the next step and runs without delay. -/
abbrev State.readyForCommand (s : State) : Prop := s.Inv ∧ s.phase = .idle ∧ s.rstI = .inactive ∧ s.cooperative

/-- The next step is the sequencer's: it is listed next, or nobody is. -/
abbrev State.sequencersTurn (s : State) : Prop := s.moves.head?.getD .sequencer = .sequencer

/-- The state in which the packet `p`, taken whole from an idle state, ends (R125, R27, R176): the generator state of the
command level, the packet gone from CMD, the transfers of R51 noted; every other register as it was while idle. -/
def State.afterPacket (s : State) (E : Cipher) (p rest : Bytes) : State :=
  let e := packetEffect s.ks E p s.generator
  { s with
    key := e.gen.key, v := e.gen.v, inst := e.gen.inst, stage := packetStage s.ks E p s.generator s.stage,
    cmd := rest, trace := s.trace ++ .cmd p :: e.events E }

/-- The environment moves that are nothing but delays (R172, R175). -/
def Move.isDelay : Move → Bool
  | .sequencer => true
  | .env .pause => true
  | .env (.setReady _ _) => true
  | .env (.offer _) => false
  | .env .readStatus => false
  | .env (.reset _) => false
  | .env .releaseReset => false

/-- The state with an environment that takes part in every transfer and makes no move of its own: the registers, the
request in flight, the bytes on CMD and the record of transfers are kept. -/
def State.withoutDelays (s : State) : State :=
  { s with outReady := true, rspReady := true, creqReady := true, crspValid := true, moves := [] }

end Sys2Proof.Machine
end

