-- ==== Sys2Proof/Certificates/Slice0/Obligations.lean ====
section
/-! DEFINITION. The statements for the provers. Where a statement quantifies over a cipher `E`, it is about `stepWith E`;
`Sys2Proof.Machine.step` is `stepWith Config.E`, so it holds of the machine's own step, and of every cipher (R44). -/

open Sys2Proof Sys2Proof.Machine

/-- For each of the three key sizes, in the state right after reset KEY, V, PD, TEMP and BLKR are all zero bytes of
their lengths, INST and PDV are 0, PHASE is IDLE, STAGE is S_INST, and REM, LENR and RCODE are 0. (R26) -/
def Obligations.ResetGivesEveryRegisterItsResetValue : Prop :=
  ∀ ks : KeySize,
    (State.resetOf ks).key = zeros ks.bytes ∧ (State.resetOf ks).v = zeros 16 ∧ (State.resetOf ks).inst = false ∧
    (State.resetOf ks).phase = .idle ∧ (State.resetOf ks).stage = .inst ∧ (State.resetOf ks).rem = 0 ∧
    (State.resetOf ks).lenr = 0 ∧ (State.resetOf ks).pd = zeros ks.seed ∧ (State.resetOf ks).pdv = false ∧
    (State.resetOf ks).temp = zeros ks.seed ∧ (State.resetOf ks).blkr = zeros 16 ∧ (State.resetOf ks).rcode = 0

/-- For each key size, whatever bytes the host offers and whatever moves the environment is about to make, the state
after reset has the invariant Inv; so has State.reset, which is the block built for AES-128 (the choice of log entry
1). Inv reads the two divisibility items of R124 as log entry 3 says: for KS = 24 the reset state, with S_INST, REM
= 0 and SEED = 40, meets the item on SEED - REM by that reading only. That rst_i stands at its moment of release
there is the choice of log entry 13. (R26, R27, 10_state.md, 46_sequencer.md) -/
def Obligations.ResetStateHasTheInvariant : Prop :=
  (∀ (ks : KeySize) (cmd : Bytes) (moves : List Move) (o r q a : Bool),
    ({ State.resetOf ks with
        cmd := cmd, moves := moves, outReady := o, rspReady := r, creqReady := q, crspValid := a } : State).Inv) ∧
  State.reset.Inv

/-- From every state with the invariant (register lengths of R12, the idle invariant of R27, the reachable combinations
of R124 with its two divisibility items read as log entry 3 says, one request in flight equal to the current KEY and
V as R47 says, BLKR clear outside EMIT, no response code above 3, every register at its reset value while rst_i is
asserted and at its release as R160 says), if step answers a next state, that state has the invariant too, whoever
moves: the sequencer, a pause, an offer, a change of readiness, a status reading, a reset or its release. (R12, R27,
R47, R124, R160, 10_state.md, 46_sequencer.md) -/
def Obligations.EveryStepKeepsTheInvariant : Prop :=
  ∀ s t : State, s.Inv → step s = .next t → t.Inv

/-- From every state with the invariant, and so from every reachable state, any number of steps answers a next state:
nothing fails in the middle of a command, and waiting for the host or the cipher is no fault. (R156, R128, R124) -/
def Obligations.MachineNeverStopsFromTheInvariant : Prop :=
  ∀ (s : State) (n : Nat), s.Inv → ∃ t : State, Host.Core.run Sys2Proof.core n s = .next t

/-- When it is the sequencer's turn, step faults with noRuleApplies if and only if State.placed fails: the registers
stand in a combination that R124 excludes (with R27 for IDLE, and its divisibility items read as log entry 3 says),
or rst_i is asserted or at its release and PHASE, STAGE, INST, KEY or V is not at the reset value that R160 gives
it. It never refuses. Of a combination outside R124 the spec says that it is stuck; that one outside R160 is stuck
too is said by no rule and is the inference of log entry 9. (R124, R160, 93_implementation_defined.md U11) -/
def Obligations.StuckExactlyOutsideTheReachableCombinations : Prop :=
  ∀ s : State, s.sequencersTurn →
    (step s = .fault .noRuleApplies ↔ s.placed = false) ∧ ∀ r : Refusal, step s ≠ .refused r

/-- From every state whatever, when rst_i is asserted next, held or not, the step puts every register at its reset value
and leaves rst_i asserted when it is held, at its moment of release when it is not; the cipher holds no request,
what the host was offering is dropped, and nothing is delivered: the only thing recorded is the reset itself. That
all bytes on CMD are dropped, and that the moves to come and the record are kept, is the choice of log entry 8. That
rst_i has these three values, and that a reset which is not held leaves the block at a moment of release of its own,
is the choice of log entry 13. (R129, R160, R162) -/
def Obligations.ResetInAnyPhase : Prop :=
  ∀ (E : Cipher) (s : State) (held : Bool) (ms : List Move), s.moves = .env (.reset held) :: ms →
    ∃ t : State, stepWith E s = .next t ∧
      t.key = zeros s.ks.bytes ∧ t.v = zeros 16 ∧ t.inst = false ∧ t.phase = .idle ∧ t.stage = .inst ∧ t.rem = 0 ∧
      t.lenr = 0 ∧ t.pd = zeros s.ks.seed ∧ t.pdv = false ∧ t.temp = zeros s.ks.seed ∧ t.blkr = zeros 16 ∧
      t.rcode = 0 ∧ t.rstI = (if held = true then .asserted else .released) ∧
      t.ks = s.ks ∧ t.inflight = none ∧ t.cmd = [] ∧ t.moves = ms ∧ t.trace = s.trace ++ [.rst]

/-- For every well-formed command, with every operand at every value a packet can carry, decode of encode is the
command. (R60, R61, R62, R63, R64, R65) -/
def Obligations.DecodeInvertsEncode : Prop :=
  ∀ i : Instr, i.wellFormed = true → decode (encode i) = .ok i

/-- Whenever decode accepts a byte string as a command, encoding that command gives the same byte string, and the
command is well-formed: no bit of a legal packet is ignored. (R60, R61, R62, R63, R64) -/
def Obligations.EncodeInvertsDecode : Prop :=
  ∀ (p : Bytes) (i : Instr), decode p = .ok i → encode i = p ∧ i.wellFormed = true

/-- The packets 02 00 00 00 00 00 00 14, 02 00 00 00 ff ff ff ff, 03 01 00 00 00 01 00 01 aa and 01 02 01 00 00 00 00 00
e0 e1 f0 decode to GENERATE 20, GENERATE 4294967295, GENERATE_AI 65537 with the one byte aa, and INSTANTIATE with
the entropy e0 e1 and the personalization f0. (R60, R61, R62, R64, R65) -/
def Obligations.WrittenOutPacketsDecode : Prop :=
  decode [0x02, 0x00, 0x00, 0x00, 0x00, 0x00, 0x00, 0x14] = .ok (.generate 20) ∧
  decode [0x02, 0x00, 0x00, 0x00, 0xff, 0xff, 0xff, 0xff] = .ok (.generate 4294967295) ∧
  decode [0x03, 0x01, 0x00, 0x00, 0x00, 0x01, 0x00, 0x01, 0xaa] = .ok (.generateAi 65537 [0xaa]) ∧
  decode [0x01, 0x02, 0x01, 0x00, 0x00, 0x00, 0x00, 0x00, 0xe0, 0xe1, 0xf0] = .ok (.instantiate [0xe0, 0xe1] [0xf0])

/-- For every eight header bytes and whatever follows them, H is the big-endian 64-bit number of the first eight bytes,
and OP, ALEN, BLEN, RSV and LEN, taken from the bits R61 names, are the header bytes 0, 1, 2, 3 and the big-endian
number of the bytes 4 to 7. (R61) -/
def Obligations.HeaderFieldsAreTheHeaderBytes : Prop :=
  ∀ (b0 b1 b2 b3 b4 b5 b6 b7 : Byte) (more : Bytes),
    let h := headerWord (b0 :: b1 :: b2 :: b3 :: b4 :: b5 :: b6 :: b7 :: more)
    h.toNat = beNat [b0, b1, b2, b3, b4, b5, b6, b7] ∧
    hdrOp h = h.extractLsb' 56 8 ∧ hdrAlen h = h.extractLsb' 48 8 ∧ hdrBlen h = h.extractLsb' 40 8 ∧
    hdrRsv h = h.extractLsb' 32 8 ∧ hdrLen h = h.extractLsb' 0 32 ∧
    hdrOp h = b0 ∧ hdrAlen h = b1 ∧ hdrBlen h = b2 ∧ hdrRsv h = b3 ∧ (hdrLen h).toNat = beNat [b4, b5, b6, b7]

/-- The opcode map has the three rows of R62, and a header that matches two of them matches one and the same row. (R62) -/
def Obligations.OpcodeRowsAreDisjoint : Prop :=
  opRows.length = 3 ∧
  ∀ (h : BitVec 64) (r q : OpRow), r ∈ opRows → q ∈ opRows → r.hits h = true → q.hits h = true → r = q

/-- A header matches no row of the opcode map exactly when OP is none of 01, 02, 03, or RSV is not zero, or it is
INSTANTIATE with LEN not zero, GENERATE with ALEN or BLEN not zero, or GENERATE_AI with BLEN not zero; otherwise it
decodes to the row of its OP. (R62, R63, R66) -/
def Obligations.IllegalHeadersAreThoseOfTheMap : Prop :=
  ∀ h : BitVec 64,
    (decodeHeader h = none ↔
      (hdrOp h ≠ 0x01 ∧ hdrOp h ≠ 0x02 ∧ hdrOp h ≠ 0x03) ∨ hdrRsv h ≠ 0 ∨
      (hdrOp h = 0x01 ∧ hdrLen h ≠ 0) ∨ (hdrOp h = 0x02 ∧ (hdrAlen h ≠ 0 ∨ hdrBlen h ≠ 0)) ∨
      (hdrOp h = 0x03 ∧ hdrBlen h ≠ 0)) ∧
    (decodeHeader h = some .instantiate → hdrOp h = 0x01) ∧ (decodeHeader h = some .generate → hdrOp h = 0x02) ∧
    (decodeHeader h = some .generateAi → hdrOp h = 0x03)

/-- In an idle state with the invariant, out of reset, with the sequencer to move, if the bytes on CMD begin with a
packet, that is 8 + ALEN + BLEN bytes with ALEN and BLEN its bytes 1 and 2, then the step takes exactly that packet
off, whatever the rest of its header says: illegal packets and packets with wrong operand lengths are consumed whole
too, and the stream stays framed. That CMD is a stream of bytes, and that the packet is noted, are the choices of
log entries 5 and 10. (R68, R34) -/
def Obligations.PacketsAreConsumedWhole : Prop :=
  ∀ (E : Cipher) (s : State) (p rest : Bytes),
    s.Inv → s.phase = .idle → s.rstI = .inactive → s.moves = [] → wholePacket p → s.cmd = p ++ rest →
    ∃ t : State, stepWith E s = .next t ∧ t.cmd = rest ∧ t.trace = s.trace ++ [.cmd p]

/-- For every byte string and every byte of it, the wires of R40 carry that byte in the eight bits R40 names. (R40) -/
def Obligations.ByteStringsOnWires : Prop :=
  ∀ (s : Bytes) (i : Nat) (h : i < s.length), (wires s).extractLsb' (8 * (s.length - 1 - i)) 8 = s[i]

/-- When the sequencer is to move, is idle, out of reset and stands in a state of R124, and the bytes on CMD begin with
the packet of a well-formed command, the step is exec of that command on the state with its own turn and the packet
taken off and noted (log entries 5, 6 and 10). (R116, R34, R63) -/
def Obligations.StepRunsTheDecodedInstruction : Prop :=
  ∀ (s : State) (i : Instr) (rest : Bytes),
    s.sequencersTurn → s.placed = true → s.phase = .idle → s.rstI = .inactive → i.wellFormed = true → s.cmd = encode i ++ rest →
    step s = exec i { s with moves := s.moves.tail, cmd := rest, trace := s.trace ++ [.cmd (encode i)] }

/-- For every key size and every entropy of SEED bytes, the line INSTANTIATE without pers= assembles to a packet that
decodes to INSTANTIATE with that entropy and SEED zero bytes of personalization, and the seed of that command is the
entropy itself. (R74, R75, R102) -/
def Obligations.MissingPersonalizationIsZeros : Prop :=
  ∀ (ks : KeySize) (ent : Bytes), ent.length = ks.seed →
    decode (assemble ks (.instantiate ent none)) = .ok (.instantiate ent (zeros ks.seed)) ∧
    seedOf ks ent (zeros ks.seed) = ent

/-- For every 16-byte V, the byte-wise INCR of R80 leaves bytes_16((be(V) + 1) mod 2^128). (R81) -/
def Obligations.IncrementIsAddOneModulo2To128 : Prop :=
  ∀ v : Bytes, v.length = 16 → incr v = beBytes 16 ((beNat v + 1) % 2 ^ 128)

/-- When the counter ends in a byte other than ff followed by k bytes ff, INCR adds one to that byte, turns the k bytes
to 00 and leaves every byte above unchanged; a counter of nothing but ff becomes nothing but 00. (R80, R82) -/
def Obligations.IncrementCarryChain : Prop :=
  (∀ (above : Bytes) (b : Byte) (k : Nat), b ≠ 0xff →
    incr (above ++ [b] ++ List.replicate k 0xff) = above ++ [b + 1] ++ zeros k) ∧
  incr (List.replicate 16 0xff) = zeros 16

/-- For every key, every 16-byte counter and every n: the bytes of FILL(n) are the first n of B_1, B_2, ... with B_k the
cipher of KEY and the counter k increments on; V ends ceil(n/16) increments on; the requests are exactly those
ceil(n/16), in order; and n bytes are produced. (R84, R87, R88, R89, R92, R93) -/
def Obligations.FillIsTheKeystream : Prop :=
  ∀ (E : Cipher) (key v : Bytes) (n : Nat), v.length = 16 →
    let c := (n + 15) / 16
    (fill E key v n).bytes = (streamBytes E key v 1 c).take n ∧ (fill E key v n).v = counterPlus v c ∧
    (fill E key v n).requests = (List.range c).map (fun k => ⟨key, counterPlus v (1 + k)⟩) ∧
    (fill E key v n).bytes.length = n

/-- From the same KEY and V, for every n and every m at least n, FILL(n) writes the first n bytes of what FILL(m)
writes; in particular of the whole blocks 16 * ceil(n/16). (R91) -/
def Obligations.FillPrefixProperty : Prop :=
  ∀ (E : Cipher) (key v : Bytes) (n m : Nat), n ≤ m → (fill E key v n).bytes = (fill E key v m).bytes.take n

/-- For every key size, key, 16-byte counter and provided data that is absent or of SEED bytes: UPDATE requests the NU
blocks V+1 to V+NU under the old key, and with T their first SEED bytes, XORed with the provided data when present,
the new KEY is T[0..KS) and the new V is T[KS..SEED). (R95, R96, R97, R98, R99) -/
def Obligations.UpdateSplitsTheMixedKeystream : Prop :=
  ∀ (ks : KeySize) (E : Cipher) (key v : Bytes) (pd : Option Bytes), v.length = 16 → (∀ d ∈ pd, d.length = ks.seed) →
    let scratch := (streamBytes E key v 1 ks.nu).take ks.seed
    let t := match pd with
      | some d => List.zipWith (· ^^^ ·) scratch d
      | none => scratch
    (update ks E key v pd).key = t.take ks.bytes ∧ (update ks E key v pd).v = t.drop ks.bytes ∧
    (update ks E key v pd).requests = (List.range ks.nu).map (fun k => ⟨key, counterPlus v (1 + k)⟩) ∧
    t.length = ks.seed

/-- For every key size, key and counter, UPDATE with SEED zero bytes yields the same KEY, V and requests as UPDATE
without provided data. (R97) -/
def Obligations.ZeroProvidedDataIsAsNone : Prop :=
  ∀ (ks : KeySize) (E : Cipher) (key v : Bytes), update ks E key v (some (zeros ks.seed)) = update ks E key v none

/-- In an idle state with the invariant, host and cipher taking part, with both operands of SEED bytes: exec of
INSTANTIATE answers the accepted state (INST 0, KEY and V zero, PD the XOR of the operands, PDV 1, S_INST, REM =
SEED, LENR 0, RCODE 0, FILL), and from it 4*NU + 3 further steps complete the command: the NU requests under the
zero key with counters 1 to NU, then RSP(OK), with KEY and V the split of their first SEED bytes XOR ent XOR pers,
INST 1, and every other register as before. (R100, R101, R116, R122, R126, R51) -/
def Obligations.InstantiateCompletes : Prop :=
  ∀ (E : Cipher) (s : State) (ent pers : Bytes),
    s.readyForCommand → ent.length = s.ks.seed → pers.length = s.ks.seed →
    let seed := List.zipWith (· ^^^ ·) ent pers
    let t := List.zipWith (· ^^^ ·) ((streamBytes E (zeros s.ks.bytes) (zeros 16) 1 s.ks.nu).take s.ks.seed) seed
    ∃ a : State, exec (.instantiate ent pers) s = .next a ∧
      a = { s with
        inst := false, key := zeros s.ks.bytes, v := zeros 16, pd := seed, pdv := true, stage := .inst,
        rem := BitVec.ofNat 32 s.ks.seed, lenr := 0, rcode := 0, phase := .fill } ∧
      runWith E (4 * s.ks.nu + 3) a = .next { s with
        key := t.take s.ks.bytes, v := t.drop s.ks.bytes, inst := true, stage := .inst,
        trace := s.trace ++ exchanges E (zeros s.ks.bytes) (zeros 16) 1 s.ks.nu ++ [.rsp 0] }

/-- In an idle instantiated state with the invariant, host and cipher taking part, for every LEN, 0 included: exec of
GENERATE answers the accepted state (PD zero, PDV 0, S_GEN, REM = LENR = LEN, RCODE 0, FILL), and from it 5*n + 4*NU
+ 4 further steps complete the command, n = ceil(LEN/16): n times request, answer, beat, the beats carrying the
first LEN bytes of the blocks 1 to n; the NU requests n+1 to n+NU under the old key; RSP(OK); KEY and V the split of
the first SEED bytes of those blocks, and every other register as before. (R105, R107, R110, R111, R116, R126, R36,
R51) -/
def Obligations.GenerateCompletes : Prop :=
  ∀ (E : Cipher) (s : State) (len : BitVec 32), s.readyForCommand → s.inst = true →
    let n := (len.toNat + 15) / 16
    let dest := (streamBytes E s.key s.v 1 n).take len.toNat
    let t := (streamBytes E s.key s.v (n + 1) s.ks.nu).take s.ks.seed
    ∃ a : State, exec (.generate len) s = .next a ∧
      a = { s with
        pd := zeros s.ks.seed, pdv := false, stage := .gen, rem := len, lenr := len, rcode := 0, phase := .fill } ∧
      dest.length = len.toNat ∧
      runWith E (5 * n + 4 * s.ks.nu + 4) a = .next { s with
        key := t.take s.ks.bytes, v := t.drop s.ks.bytes, stage := .post,
        trace := s.trace ++ outputTransfers E s.key s.v dest ++ exchanges E s.key s.v (n + 1) s.ks.nu ++ [.rsp 0] }

/-- In an idle instantiated state with the invariant, host and cipher taking part, with an additional input of SEED
bytes and for every LEN: exec of GENERATE_AI answers the accepted state (PD the additional input, PDV 1, S_PRE, REM
= SEED, LENR = LEN, RCODE 0, FILL), and from it 5*n + 8*NU + 6 further steps complete the command: an Update with
add, the output of LEN bytes under the new state, an Update with the same add, RSP(OK), with KEY, V and the output
bytes the closed forms of R106. (R106, R107, R108, R109, R116, R126, R36, R51) -/
def Obligations.GenerateAiCompletes : Prop :=
  ∀ (E : Cipher) (s : State) (len : BitVec 32) (add : Bytes),
    s.readyForCommand → s.inst = true → add.length = s.ks.seed →
    let n := (len.toNat + 15) / 16
    let t1 := List.zipWith (· ^^^ ·) ((streamBytes E s.key s.v 1 s.ks.nu).take s.ks.seed) add
    let k1 := t1.take s.ks.bytes
    let v1 := t1.drop s.ks.bytes
    let dest := (streamBytes E k1 v1 1 n).take len.toNat
    let t := List.zipWith (· ^^^ ·) ((streamBytes E k1 v1 (n + 1) s.ks.nu).take s.ks.seed) add
    ∃ a : State, exec (.generateAi len add) s = .next a ∧
      a = { s with
        pd := add, pdv := true, stage := .pre, rem := BitVec.ofNat 32 s.ks.seed, lenr := len, rcode := 0,
        phase := .fill } ∧
      dest.length = len.toNat ∧
      runWith E (5 * n + 8 * s.ks.nu + 6) a = .next { s with
        key := t.take s.ks.bytes, v := t.drop s.ks.bytes, stage := .post,
        trace := s.trace ++ exchanges E s.key s.v 1 s.ks.nu ++ outputTransfers E k1 v1 dest ++
          exchanges E k1 v1 (n + 1) s.ks.nu ++ [.rsp 0] }

/-- For every cipher function, every idle state with the invariant in which host and cipher take part, and every whole
packet next on CMD, legal or not: running the micro-steps of R126 from the CMD transfer to the RSP transfer gives
the state afterPacket, whose KEY, V and INST are those of the command-level functions, whose recorded transfers are
the packet and then the requests, answers, beats and response of the command-level effect in the order of R51, and
whose other registers are as they were while idle (STAGE apart, which R27 leaves open). (R125, R126, R51, R27, R116,
R144) -/
def Obligations.SequencerRefinesTheCommandLevel : Prop :=
  ∀ (E : Cipher) (s : State) (p rest : Bytes), s.readyForCommand → wholePacket p → s.cmd = p ++ rest →
    runWith E (packetSteps s.ks E p s.generator) s = .next (s.afterPacket E p rest)

/-- For every packet and generator state, in the transfers of the command-level effect the valid bytes of the beats in
order are the output, the cipher requests in order are its requests, there is exactly one response, with its code,
and a command that ends in an error has no output and no request. (R36, R37, R51, R125, R144) -/
def Obligations.TransfersCarryTheEffect : Prop :=
  ∀ (ks : KeySize) (E : Cipher) (p : Bytes) (g : Generator),
    let e := packetEffect ks E p g
    destOf (e.events E) = e.output ∧ requestsOf (e.events E) = e.requests ∧ responsesOf (e.events E) = [e.code] ∧
    (e.code ≠ codeOk → e.output = [] ∧ e.requests = [])

/-- For every output and every beat number below ceil(LEN/16): the beat has 16 data bytes and 1 to 16 valid ones, its
valid bytes are DEST[16k .. min(16k+16, LEN)), its other lanes are zero, NB is 16 on every beat but possibly the
last, and LAST is set on the final beat only. (R36, R70) -/
def Obligations.BeatsCutTheOutput : Prop :=
  ∀ (dest : Bytes) (k : Nat), k < (dest.length + 15) / 16 →
    let b := beatAt dest k
    b.data.length = 16 ∧ 1 ≤ b.nb.toNat ∧ b.nb.toNat ≤ 16 ∧
    b.data.take b.nb.toNat = (dest.drop (16 * k)).take 16 ∧ b.data.drop b.nb.toNat = zeros (16 - b.nb.toNat) ∧
    (k + 1 < (dest.length + 15) / 16 → b.nb = 16) ∧ (b.last = true ↔ k + 1 = (dest.length + 15) / 16)

/-- A successful INSTANTIATE makes NU requests; a successful GENERATE ceil(LEN/16) for the output and NU after it; a
successful GENERATE_AI NU before the output as well; the output and the Update after it use at most 2^28 + 3 blocks
under one key. (R99, R100, R105, R106, R109, R169) -/
def Obligations.RequestCounts : Prop :=
  ∀ (ks : KeySize) (E : Cipher) (g : Generator) (ent pers add : Bytes) (len : BitVec 32),
    let n := (len.toNat + 15) / 16
    (ent.length = ks.seed → pers.length = ks.seed → (cmdInstantiate ks E ent pers g).requests.length = ks.nu) ∧
    (g.inst = true → (cmdGenerate ks E len g).requests.length = n + ks.nu ∧
      (cmdGenerate ks E len g).outRequests.length = n) ∧
    (g.inst = true → add.length = ks.seed → (cmdGenerateAi ks E len add g).requests.length = ks.nu + n + ks.nu ∧
      (cmdGenerateAi ks E len add g).outRequests.length = n) ∧
    n + ks.nu ≤ 2 ^ 28 + 3

/-- For operands of SEED bytes, two INSTANTIATE commands whose operands have the same XOR do the same in every state; in
particular ent and pers may be swapped. (R102) -/
def Obligations.OnlyTheXorOfTheOperandsMatters : Prop :=
  ∀ (s : State) (e1 p1 e2 p2 : Bytes),
    e1.length = s.ks.seed → p1.length = s.ks.seed → e2.length = s.ks.seed → p2.length = s.ks.seed →
    List.zipWith (· ^^^ ·) e1 p1 = List.zipWith (· ^^^ ·) e2 p2 →
    exec (.instantiate e1 p1) s = exec (.instantiate e2 p2) s

/-- From two ready states of the same key size, with any KEY, V and INST, the same INSTANTIATE with operands of SEED
bytes ends in both with INST 1 and the same KEY and V, after the same transfers. (R101, R104) -/
def Obligations.InstantiateForgetsTheOldGenerator : Prop :=
  ∀ (E : Cipher) (s1 s2 : State) (ent pers rest1 rest2 : Bytes),
    s1.readyForCommand → s2.readyForCommand → s1.ks = s2.ks → ent.length = s1.ks.seed → pers.length = s1.ks.seed →
    s1.cmd = encode (.instantiate ent pers) ++ rest1 → s2.cmd = encode (.instantiate ent pers) ++ rest2 →
    ∃ (t1 t2 : State) (evs : List Event),
      runWith E (4 * s1.ks.nu + 4) s1 = .next t1 ∧ runWith E (4 * s1.ks.nu + 4) s2 = .next t2 ∧
      t1.key = t2.key ∧ t1.v = t2.v ∧ t1.inst = true ∧ t2.inst = true ∧
      t1.trace = s1.trace ++ evs ∧ t2.trace = s2.trace ++ evs

/-- Two ready states of the same key size with the same KEY, V and INST, whatever else they hold, given the same whole
packet, end after the same number of steps with the same KEY, V and INST and the same transfers. (R12, R27, R114) -/
def Obligations.CommandsDependOnTheGeneratorStateAlone : Prop :=
  ∀ (E : Cipher) (s1 s2 : State) (p rest1 rest2 : Bytes),
    s1.readyForCommand → s2.readyForCommand → s1.ks = s2.ks → s1.generator = s2.generator → wholePacket p →
    s1.cmd = p ++ rest1 → s2.cmd = p ++ rest2 →
    ∃ (n : Nat) (t1 t2 : State) (evs : List Event), runWith E n s1 = .next t1 ∧ runWith E n s2 = .next t2 ∧
      t1.phase = .idle ∧ t2.phase = .idle ∧ t1.cmd = rest1 ∧ t2.cmd = rest2 ∧
      t1.generator = t2.generator ∧ t1.trace = s1.trace ++ evs ∧ t2.trace = s2.trace ++ evs

/-- When exec of any command answers a next state: KS, TEMP, BLKR, rst_i, the request in flight, the bytes on CMD, the
readiness of the environment, its moves and the record are unchanged; GENERATE and GENERATE_AI leave KEY, V and INST
unchanged, in success and in error; a command that ends in an error changes RCODE and PHASE and nothing else; one
that is accepted goes to FILL with RCODE 0. (R116, R144, R28) -/
def Obligations.ExecFrame : Prop :=
  ∀ (i : Instr) (s t : State), exec i s = .next t →
    t.ks = s.ks ∧ t.temp = s.temp ∧ t.blkr = s.blkr ∧ t.rstI = s.rstI ∧ t.inflight = s.inflight ∧ t.cmd = s.cmd ∧
    t.outReady = s.outReady ∧ t.rspReady = s.rspReady ∧ t.creqReady = s.creqReady ∧ t.crspValid = s.crspValid ∧
    t.moves = s.moves ∧ t.trace = s.trace ∧
    ((∀ ent pers, i ≠ .instantiate ent pers) → t.key = s.key ∧ t.v = s.v ∧ t.inst = s.inst) ∧
    (t.rcode ≠ 0 → t = { s with rcode := t.rcode, phase := .resp }) ∧ (t.rcode = 0 → t.phase = .fill)

/-- In a state with INST = 0, exec of GENERATE and of GENERATE_AI, with any LEN and an additional input of any length,
writes RCODE 2 and goes to RESP, and changes nothing else. (R143, R144, R145) -/
def Obligations.NotInstantiatedIsRaised : Prop :=
  ∀ (s : State) (len : BitVec 32) (add : Bytes), s.inst = false →
    exec (.generate len) s = .next { s with rcode := 2, phase := .resp } ∧
    exec (.generateAi len add) s = .next { s with rcode := 2, phase := .resp }

/-- INSTANTIATE with ent or pers not of SEED bytes, in every state, and GENERATE_AI with add not of SEED bytes, in every
instantiated state, write RCODE 3 and go to RESP, and change nothing else; shorter, longer and empty operands alike.
GENERATE never does. (R141, R144) -/
def Obligations.InvalidSeedLengthIsRaised : Prop :=
  (∀ (s : State) (ent pers : Bytes), ent.length ≠ s.ks.seed ∨ pers.length ≠ s.ks.seed →
    exec (.instantiate ent pers) s = .next { s with rcode := 3, phase := .resp }) ∧
  (∀ (s : State) (len : BitVec 32) (add : Bytes), s.inst = true → add.length ≠ s.ks.seed →
    exec (.generateAi len add) s = .next { s with rcode := 3, phase := .resp }) ∧
  (∀ (s t : State) (len : BitVec 32), exec (.generate len) s = .next t → s.rcode ≠ 3 → t.rcode ≠ 3)

/-- In an idle state with the invariant, out of reset, with the sequencer to move, a whole packet next on CMD whose
header matches no row of the opcode map is taken off and noted, RCODE takes 1 and the sequencer goes to RESP; no
other register changes. (R66, R142, R144) -/
def Obligations.IllegalCommandIsRaised : Prop :=
  ∀ (E : Cipher) (s : State) (p rest : Bytes),
    s.Inv → s.phase = .idle → s.rstI = .inactive → s.moves = [] → wholePacket p → s.cmd = p ++ rest →
    decodeHeader (headerWord p) = none →
    stepWith E s = .next { s with cmd := rest, trace := s.trace ++ [.cmd p], rcode := 1, phase := .resp }

/-- In an idle state with the invariant, out of reset, for every whole packet next on CMD, the step answers a state
whose RCODE is 1 if the header is illegal; else 2 if INST = 0 and the opcode is not INSTANTIATE; else 3 if an
operand in use is not SEED bytes; else 0; and which is in RESP in the first three cases and in FILL in the last.
(R145) -/
def Obligations.ErrorsFollowThePriorityOrder : Prop :=
  ∀ (E : Cipher) (s : State) (p rest : Bytes),
    s.Inv → s.phase = .idle → s.rstI = .inactive → s.moves = [] → wholePacket p → s.cmd = p ++ rest →
    let op := p.getD 0 0
    let alen := (p.getD 1 0).toNat
    let blen := (p.getD 2 0).toNat
    let code : BitVec 4 :=
      if decodeHeader (headerWord p) = none then 1
      else if s.inst = false ∧ op ≠ 0x01 then 2
      else if op = 0x01 ∧ (alen ≠ s.ks.seed ∨ blen ≠ s.ks.seed) ∨ op = 0x03 ∧ alen ≠ s.ks.seed then 3
      else 0
    ∃ t : State, stepWith E s = .next t ∧ t.rcode = code ∧ t.phase = if code = 0 then .fill else .resp

/-- In a ready state, a whole packet that ends in an error takes two steps, and leaves a state that differs from the one
before only in the bytes taken off CMD and in the record: the packet and one response with its code. Every register
has the value it had. (R146, R144, R126) -/
def Obligations.ARefusedCommandLeavesNoMark : Prop :=
  ∀ (E : Cipher) (s : State) (p rest : Bytes), s.readyForCommand → wholePacket p → s.cmd = p ++ rest →
    (packetEffect s.ks E p s.generator).code ≠ codeOk →
    runWith E 2 s = .next { s with
      cmd := rest, trace := s.trace ++ [.cmd p, .rsp (packetEffect s.ks E p s.generator).code] }

/-- In phase FILL: with REM not 0 the next phase is INC; with REM = 0 in S_GEN the stage becomes S_POST and REM becomes
SEED, the phase staying FILL; with REM = 0 in another stage the next phase is MIX. Nothing else changes. (R117) -/
def Obligations.FillLoopControl : Prop :=
  ∀ (E : Cipher) (s : State), s.Inv → s.phase = .fill → s.moves = [] →
    (s.rem ≠ 0 → stepWith E s = .next { s with phase := .inc }) ∧
    (s.rem = 0 → s.stage = .gen →
      stepWith E s = .next { s with stage := .post, rem := BitVec.ofNat 32 s.ks.seed }) ∧
    (s.rem = 0 → s.stage ≠ .gen → stepWith E s = .next { s with phase := .mix })

/-- In phase INC the step writes V with bytes_16((be(V) + 1) mod 2^128) and goes to REQ; nothing else changes. (R118,
R81) -/
def Obligations.IncMicroStep : Prop :=
  ∀ (E : Cipher) (s : State), s.Inv → s.phase = .inc → s.moves = [] →
    stepWith E s = .next { s with v := beBytes 16 ((beNat s.v + 1) % 2 ^ 128), phase := .req }

/-- In phase REQ, when the cipher accepts requests, the step transfers (KEY, V) on CREQ and goes to WAIT; the cipher
then holds that request; no other register changes. (R45, R119, R25) -/
def Obligations.RequestCarriesKeyAndCounter : Prop :=
  ∀ (E : Cipher) (s : State), s.Inv → s.phase = .req → s.moves = [] → s.creqReady = true →
    stepWith E s = .next { s with
      phase := .wait, inflight := some ⟨s.key, s.v⟩, trace := s.trace ++ [.creq ⟨s.key, s.v⟩] }

/-- In phase WAIT, when the cipher delivers, with R = E(KEY, V) and n = min(16, REM): in S_GEN, BLKR becomes the first n
bytes of R followed by zeros and the phase EMIT, REM unchanged; in another stage the first n bytes of R are written
to TEMP at offset SEED - REM, REM decreases by n and the phase becomes FILL. The answer is transferred on CRSP;
nothing else changes. (R47, R120) -/
def Obligations.AnswerIsTaken : Prop :=
  ∀ (E : Cipher) (s : State), s.Inv → s.phase = .wait → s.moves = [] → s.crspValid = true →
    let r := (E s.key s.v).toList
    let n := min 16 s.rem.toNat
    let off := s.ks.seed - s.rem.toNat
    (s.stage = .gen → stepWith E s = .next { s with
      inflight := none, blkr := r.take n ++ zeros (16 - n), phase := .emit, trace := s.trace ++ [.crsp r] }) ∧
    (s.stage ≠ .gen → stepWith E s = .next { s with
      inflight := none, temp := s.temp.take off ++ r.take n ++ s.temp.drop (off + n),
      rem := BitVec.ofNat 32 (s.rem.toNat - n), phase := .fill, trace := s.trace ++ [.crsp r] })

/-- In phase EMIT, when the host accepts, the step delivers the beat DATA = BLKR, NB = min(16, REM), LAST = 1 exactly
when REM <= 16; REM decreases by min(16, REM), BLKR becomes zero and the phase FILL; nothing else changes. (R121) -/
def Obligations.EmitDeliversTheBeat : Prop :=
  ∀ (E : Cipher) (s : State), s.Inv → s.phase = .emit → s.moves = [] → s.outReady = true →
    let n := min 16 s.rem.toNat
    stepWith E s = .next { s with
      rem := BitVec.ofNat 32 (s.rem.toNat - n), blkr := zeros 16, phase := .fill,
      trace := s.trace ++ [.out ⟨s.blkr, BitVec.ofNat 5 n, decide (s.rem.toNat ≤ 16)⟩] }

/-- In phase MIX, with T = TEMP XOR PD when PDV = 1 and T = TEMP otherwise: KEY becomes T[0..KS), V becomes T[KS..SEED),
TEMP becomes zero; in S_INST, INST becomes 1 and the phase RESP; in S_PRE the stage becomes S_GEN, REM becomes LENR
and the phase FILL; in S_POST the phase becomes RESP. Nothing else changes. (R122) -/
def Obligations.MixSplitsAndHandsOver : Prop :=
  ∀ (E : Cipher) (s : State), s.Inv → s.phase = .mix → s.moves = [] →
    let t := if s.pdv = true then List.zipWith (· ^^^ ·) s.temp s.pd else s.temp
    let u : State := { s with key := t.take s.ks.bytes, v := t.drop s.ks.bytes, temp := zeros s.ks.seed }
    (s.stage = .inst → stepWith E s = .next { u with inst := true, phase := .resp }) ∧
    (s.stage = .pre → stepWith E s = .next { u with stage := .gen, rem := s.lenr, phase := .fill }) ∧
    (s.stage = .post → stepWith E s = .next { u with phase := .resp })

/-- In phase RESP, when the host accepts, the step delivers RCODE on RSP, sets PD to zero bytes, PDV, LENR and RCODE to
0 and the phase to IDLE; nothing else changes, and the working registers then hold their reset values. (R123, R146,
R27) -/
def Obligations.ResponseIsDeliveredAndTheLatchesCleared : Prop :=
  ∀ (E : Cipher) (s : State), s.Inv → s.phase = .resp → s.moves = [] → s.rspReady = true →
    ∃ t : State, stepWith E s = .next t ∧
      t = { s with
        pd := zeros s.ks.seed, pdv := false, lenr := 0, rcode := 0, phase := .idle,
        trace := s.trace ++ [.rsp s.rcode] } ∧
      t.workingClear = true

/-- While the cipher does not accept (REQ) or does not answer (WAIT), the host does not accept a beat (EMIT) or a
response (RESP), or no whole packet is on CMD (IDLE), and likewise while rst_i is held, any number of steps leaves
the whole state as it is: a hang, not a fault. (R128, R167, R170, R34, R160) -/
def Obligations.WaitingForATransferChangesNothing : Prop :=
  ∀ (E : Cipher) (s : State) (n : Nat), s.Inv → s.moves = [] →
    (s.phase = .req ∧ s.creqReady = false) ∨ (s.phase = .wait ∧ s.crspValid = false) ∨
    (s.phase = .emit ∧ s.outReady = false) ∨ (s.phase = .resp ∧ s.rspReady = false) ∨
    (s.rstI = .asserted) ∨
    (s.phase = .idle ∧ s.rstI = .inactive ∧
      (s.cmd.length < 8 ∨ s.cmd.length < 8 + (s.cmd.getD 1 0).toNat + (s.cmd.getD 2 0).toNat)) →
    runWith E n s = .next s

/-- From every state with the invariant, a step that changes PHASE goes along an edge of the table of R115, under the
condition the table gives (for the edges into FILL and RESP from IDLE: a whole packet is taken, and RCODE is 0 or
not); a step of the sequencer that leaves PHASE as it is either starts the post-output Update (FILL, REM = 0, S_GEN)
or ends the moment of release of rst_i (the choice of log entry 13), or changes nothing. (R115) -/
def Obligations.PhaseMovesAlongTheEdges : Prop :=
  ∀ (E : Cipher) (s t : State), s.Inv → stepWith E s = .next t →
    (t.phase ≠ s.phase →
      (∃ b ms, s.moves = .env (.reset b) :: ms ∧ t.phase = .idle) ∨
      (s.sequencersTurn ∧ s.rstI = .inactive ∧
       ((s.phase = .idle ∧ t.phase = .fill ∧ t.rcode = 0 ∧ ∃ p, wholePacket p ∧ s.cmd = p ++ t.cmd) ∨
        (s.phase = .idle ∧ t.phase = .resp ∧ t.rcode ≠ 0 ∧ ∃ p, wholePacket p ∧ s.cmd = p ++ t.cmd) ∨
        (s.phase = .fill ∧ t.phase = .inc ∧ s.rem ≠ 0) ∨ (s.phase = .fill ∧ t.phase = .mix ∧ s.rem = 0 ∧ s.stage ≠ .gen) ∨
        (s.phase = .inc ∧ t.phase = .req) ∨ (s.phase = .req ∧ t.phase = .wait ∧ s.creqReady = true) ∨
        (s.phase = .wait ∧ t.phase = .fill ∧ s.crspValid = true ∧ s.stage ≠ .gen) ∨
        (s.phase = .wait ∧ t.phase = .emit ∧ s.crspValid = true ∧ s.stage = .gen) ∨
        (s.phase = .emit ∧ t.phase = .fill ∧ s.outReady = true) ∨
        (s.phase = .mix ∧ t.phase = .fill ∧ s.stage = .pre) ∨
        (s.phase = .mix ∧ t.phase = .resp ∧ (s.stage = .inst ∨ s.stage = .post)) ∨
        (s.phase = .resp ∧ t.phase = .idle ∧ s.rspReady = true)))) ∧
    (t.phase = s.phase → s.sequencersTurn →
      (s.phase = .fill ∧ s.rem = 0 ∧ s.stage = .gen ∧ t.stage = .post) ∨
      (s.rstI = .released ∧ t = { s with moves := s.moves.tail, rstI := .inactive }) ∨
      t = { s with moves := s.moves.tail })

/-- From every state with the invariant, a step that changes KEY is the acceptance of an INSTANTIATE (KEY becomes zero),
the MIX micro-step (KEY becomes the first KS bytes of the mixed scratch) or reset (zero); a step that changes V is
one of these (zero, the last 16 bytes of the mixed scratch, zero) or the INC micro-step (one increment). (R10, R11,
R118) -/
def Obligations.KeyAndCounterAreWrittenOnlySo : Prop :=
  ∀ (E : Cipher) (s t : State), s.Inv → stepWith E s = .next t →
    let mixed := if s.pdv = true then List.zipWith (· ^^^ ·) s.temp s.pd else s.temp
    (t.key ≠ s.key →
      (∃ b ms, s.moves = .env (.reset b) :: ms ∧ t.key = zeros s.ks.bytes) ∨
      (s.phase = .idle ∧ t.phase = .fill ∧ t.stage = .inst ∧ t.key = zeros s.ks.bytes) ∨
      (s.phase = .mix ∧ t.key = mixed.take s.ks.bytes)) ∧
    (t.v ≠ s.v →
      (∃ b ms, s.moves = .env (.reset b) :: ms ∧ t.v = zeros 16) ∨
      (s.phase = .idle ∧ t.phase = .fill ∧ t.stage = .inst ∧ t.v = zeros 16) ∨
      (s.phase = .inc ∧ t.v = counterPlus s.v 1) ∨ (s.phase = .mix ∧ t.v = mixed.drop s.ks.bytes))

/-- From every state with the invariant: a step that takes INST from 1 to 0 is reset, or takes a packet that decodes to
an INSTANTIATE with both operands of SEED bytes; a step that takes INST from 0 to 1 is the MIX micro-step in stage
S_INST, which writes the new KEY and V in the same step. (R14, R104, R161) -/
def Obligations.InstantiatedFlagChangesOnlySo : Prop :=
  ∀ (E : Cipher) (s t : State), s.Inv → stepWith E s = .next t →
    (s.inst = true → t.inst = false →
      (∃ b ms, s.moves = .env (.reset b) :: ms) ∨
      (s.phase = .idle ∧ ∃ ent pers : Bytes, ent.length = s.ks.seed ∧ pers.length = s.ks.seed ∧
        s.cmd = encode (.instantiate ent pers) ++ t.cmd)) ∧
    (s.inst = false → t.inst = true →
      s.phase = .mix ∧ s.stage = .inst ∧ t.key ++ t.v = List.zipWith (· ^^^ ·) s.temp s.pd)

/-- From every state with the invariant in which a command is in progress (neither IDLE nor RESP), every step other than
reset leaves PD, PDV and LENR as they are: the Update after the output sees the same additional input as the one
before it. (R18, R19, R108) -/
def Obligations.ProvidedDataIsHeldForTheCommand : Prop :=
  ∀ (E : Cipher) (s t : State), s.Inv → s.phase ≠ .idle → s.phase ≠ .resp → stepWith E s = .next t →
    (∃ b ms, s.moves = .env (.reset b) :: ms) ∨ (t.pd = s.pd ∧ t.pdv = s.pdv ∧ t.lenr = s.lenr)

/-- From every state with the invariant, a step that changes the bytes on CMD takes one whole packet off the front in
phase IDLE, out of reset, or is the host adding bytes behind, or is reset, which drops them all (the choice of log
entry 8); so commands never interleave. (R34, R50, R53) -/
def Obligations.PacketsAreTakenOnlyWhenIdle : Prop :=
  ∀ (E : Cipher) (s t : State), s.Inv → stepWith E s = .next t → t.cmd ≠ s.cmd →
    (s.phase = .idle ∧ s.rstI = .inactive ∧ ∃ p, wholePacket p ∧ s.cmd = p ++ t.cmd ∧ t.trace = s.trace ++ [.cmd p]) ∨
    (∃ bytes ms, s.moves = .env (.offer bytes) :: ms ∧ t.cmd = s.cmd ++ bytes) ∨
    (∃ b ms, s.moves = .env (.reset b) :: ms ∧ t.cmd = [])

/-- From every state with the invariant, every step other than reset keeps the balance: packets taken, less responses
delivered, less one if a command is in progress, does not change. (R37, R148) -/
def Obligations.OneResponsePerPacket : Prop :=
  ∀ (E : Cipher) (s t : State), s.Inv → stepWith E s = .next t → (∀ b ms, s.moves ≠ .env (.reset b) :: ms) →
    (packetsOf t.trace).length + (responsesOf s.trace).length + (if s.phase = .idle then 0 else 1) =
    (packetsOf s.trace).length + (responsesOf t.trace).length + (if t.phase = .idle then 0 else 1)

/-- From every state with the invariant, a step that takes an answer b on CRSP is taken in phase WAIT, b is E(KEY, V) of
the state it is taken in, and KEY and V are the same after it. (R46, R47) -/
def Obligations.AnswersAreOfTheCurrentKeyAndCounter : Prop :=
  ∀ (E : Cipher) (s t : State) (b : Bytes), s.Inv → stepWith E s = .next t → t.trace = s.trace ++ [.crsp b] →
    s.phase = .wait ∧ b = (E s.key s.v).toList ∧ t.key = s.key ∧ t.v = s.v ∧ t.inflight = none

/-- In every state with the invariant: in WAIT of an Update, offset SEED - REM plus length min(16, REM) does not exceed
SEED; in EMIT, offset LENR - REM plus length min(16, REM) does not exceed LENR; and both lengths are at least 1.
(R56) -/
def Obligations.WritesStayInBounds : Prop :=
  ∀ s : State, s.Inv →
    (s.phase = .wait → s.stage ≠ .gen →
      1 ≤ min 16 s.rem.toNat ∧ s.rem.toNat ≤ s.ks.seed ∧ (s.ks.seed - s.rem.toNat) + min 16 s.rem.toNat ≤ s.ks.seed) ∧
    (s.phase = .emit →
      1 ≤ min 16 s.rem.toNat ∧ s.rem.toNat ≤ s.lenr.toNat ∧
      (s.lenr.toNat - s.rem.toNat) + min 16 s.rem.toNat ≤ s.lenr.toNat)

/-- From every state with the invariant, a step that delivers a response on RSP delivers a code 0 to 3. (R69,
93_implementation_defined.md U12) -/
def Obligations.NoReservedResponseCodeIsDelivered : Prop :=
  ∀ (E : Cipher) (s t : State) (c : BitVec 4), s.Inv → stepWith E s = .next t → t.trace = s.trace ++ [.rsp c] →
    c = 0 ∨ c = 1 ∨ c = 2 ∨ c = 3

/-- Two states with the invariant that agree in everything but KEY, V, TEMP and PD make steps after which the host has
seen the same: beats, responses, status readings, packets taken and resets. Keystream reaches the host through BLKR
alone. (R23, R150, R154) -/
def Obligations.HostSeesNoSecretRegister : Prop :=
  ∀ (E : Cipher) (s t s' t' : State) (key v temp pd : Bytes), s.Inv → s'.Inv →
    s' = { s with key := key, v := v, temp := temp, pd := pd, inflight := s'.inflight } →
    stepWith E s = .next t → stepWith E s' = .next t' → hostEvents t.trace = hostEvents t'.trace

/-- When the host reads the status wires next, the step records INST and whether PHASE is IDLE, and changes nothing
else; in the reset state inst_o is 0 and idle_o is 1. (R23, R43, R175) -/
def Obligations.StatusWires : Prop :=
  (∀ (E : Cipher) (s : State) (ms : List Move), s.moves = .env .readStatus :: ms →
    stepWith E s = .next { s with
      moves := ms, trace := s.trace ++ [.status s.inst (decide (s.phase = .idle))] }) ∧
  ∀ ks : KeySize, (State.resetOf ks).instO = false ∧ (State.resetOf ks).idleO = true

/-- Every step of every state, reset included, leaves the key size as it is. (R6) -/
def Obligations.KeySizeNeverChanges : Prop :=
  ∀ (E : Cipher) (s t : State), stepWith E s = .next t → t.ks = s.ks

/-- For every cipher and every state whose moves to come are only turns of the sequencer, pauses and changes of
readiness: if n steps answer a state t, then from the same state with an environment that takes part in everything
at once, some m of at most n steps reaches a state that equals t in every register, in the request in flight, in the
bytes on CMD and in every transfer made. How delays are written down is the choice of log entry 6. (R114, R128,
R172, R175) -/
def Obligations.DelaysDoNotMatter : Prop :=
  ∀ (E : Cipher) (s t : State) (n : Nat), (∀ m ∈ s.moves, m.isDelay = true) → runWith E n s = .next t →
    ∃ (m : Nat) (u : State), m ≤ n ∧ runWith E m s.withoutDelays = .next u ∧ u.withoutDelays = t.withoutDelays

/-- From every state with the invariant: while rst_i is asserted, and at the moment it is released, no valid and no
ready is driven, inst_o is 0, idle_o is 1 and every register holds its reset value; otherwise ready of CMD is driven
exactly in IDLE, valid of OUT in EMIT, valid of RSP in RESP, valid of CREQ in REQ and ready of CRSP in WAIT;
releasing a held rst_i gives the moment of release, from which the next turn of the block leads out of reset (the
choice of log entry 13), nothing else changing; and a step that makes a transfer on a channel is taken in a state in
which the block drives that channel. (R33, R160, R23, R26) -/
def Obligations.WiresAreDrivenInTheirPhaseAndNeverInReset : Prop :=
  ∀ (E : Cipher) (s : State), s.Inv →
    (s.rstI = .asserted ∨ s.rstI = .released →
      s.cmdReady = false ∧ s.outValid = false ∧ s.rspValid = false ∧ s.creqValid = false ∧ s.crspReady = false ∧
      s.instO = false ∧ s.idleO = true ∧
      s.key = zeros s.ks.bytes ∧ s.v = zeros 16 ∧ s.inst = false ∧ s.phase = .idle ∧ s.stage = .inst ∧ s.rem = 0 ∧
      s.lenr = 0 ∧ s.pd = zeros s.ks.seed ∧ s.pdv = false ∧ s.temp = zeros s.ks.seed ∧ s.blkr = zeros 16 ∧
      s.rcode = 0) ∧
    (s.rstI = .inactive →
      (s.cmdReady = true ↔ s.phase = .idle) ∧ (s.outValid = true ↔ s.phase = .emit) ∧
      (s.rspValid = true ↔ s.phase = .resp) ∧ (s.creqValid = true ↔ s.phase = .req) ∧
      (s.crspReady = true ↔ s.phase = .wait)) ∧
    (s.rstI = .asserted → ∀ ms, s.moves = .env .releaseReset :: ms →
      stepWith E s = .next { s with moves := ms, rstI := .released }) ∧
    (s.rstI = .released → s.sequencersTurn →
      stepWith E s = .next { s with moves := s.moves.tail, rstI := .inactive }) ∧
    ∀ t : State, stepWith E s = .next t →
      (∀ p, t.trace = s.trace ++ [.cmd p] → s.cmdReady = true) ∧ (∀ b, t.trace = s.trace ++ [.out b] → s.outValid = true) ∧
      (∀ c, t.trace = s.trace ++ [.rsp c] → s.rspValid = true) ∧ (∀ q, t.trace = s.trace ++ [.creq q] → s.creqValid = true) ∧
      (∀ b, t.trace = s.trace ++ [.crsp b] → s.crspReady = true)
end

