-- ==== Sys2Proof/Laws/Bytes.lean ====
section
/-! SUPPORT. Byte strings: lengths, reading and writing, big-endian numbers, INCR. -/

namespace Sys2Proof.Machine

/-! ## Lengths -/

@[simp] theorem length_zeros (n : Nat) : (zeros n).length = n := by simp [zeros]

@[simp] theorem length_beBytes (n k : Nat) : (beBytes n k).length = n := by simp [beBytes]

@[simp] theorem length_memRead (s : Bytes) (off n : Nat) : (memRead s off n).length = min n (s.length - off) := by
  simp [memRead]

@[simp] theorem length_xorBytes (a b : Bytes) : (xorBytes a b).length = min a.length b.length := by
  simp [xorBytes]

theorem length_memWrite (space s : Bytes) (off : Nat) (h : off + s.length ≤ space.length) :
    (memWrite space off s).length = space.length := by
  simp only [memWrite, List.length_append, List.length_take, List.length_drop]; omega

theorem length_padBlock (b : Bytes) (n : Nat) (hb : b.length = 16) (hn : n ≤ 16) : (padBlock b n).length = 16 := by
  simp only [padBlock, List.length_append, List.length_take, length_zeros]; omega

@[simp] theorem length_incrChain (v : Bytes) : (incrChain v).length = v.length := by
  induction v with
  | nil => rfl
  | cons b bs ih => simp only [incrChain]; split <;> simp [ih]

@[simp] theorem length_incr (v : Bytes) : (incr v).length = v.length := by simp [incr]

theorem seed_eq (ks : KeySize) : ks.seed = ks.bytes + 16 := rfl

theorem seed_cases (ks : KeySize) : ks.seed = 32 ∧ ks.nu = 2 ∨ ks.seed = 40 ∧ ks.nu = 3 ∨ ks.seed = 48 ∧ ks.nu = 3 := by
  cases ks <;> decide

@[simp] theorem seedWord_toNat (ks : KeySize) : (seedWord ks).toNat = ks.seed := by cases ks <;> decide

theorem seedWord_ne_zero (ks : KeySize) : seedWord ks ≠ 0 := by cases ks <;> decide

/-! ## Big-endian numbers (R7) -/

theorem foldl_bytes (s : Bytes) (a : Nat) :
    s.foldl (fun acc b => acc * 256 + b.toNat) a = a * 256 ^ s.length + beNat s := by
  induction s generalizing a with
  | nil => simp [beNat]
  | cons b s ih =>
    simp only [beNat, List.foldl_cons, List.length_cons]
    rw [ih, ih (0 * 256 + b.toNat)]
    ring

@[simp] theorem beNat_nil : beNat [] = 0 := rfl

theorem beNat_append (a b : Bytes) : beNat (a ++ b) = beNat a * 256 ^ b.length + beNat b := by
  rw [beNat, List.foldl_append, foldl_bytes]; rfl

theorem beNat_cons (b : Byte) (s : Bytes) : beNat (b :: s) = b.toNat * 256 ^ s.length + beNat s := by
  simpa [beNat] using beNat_append [b] s

theorem beNat_lt (s : Bytes) : beNat s < 256 ^ s.length := by
  induction s with
  | nil => simp
  | cons b s ih =>
    rw [beNat_cons, List.length_cons, pow_succ]
    have := b.isLt
    nlinarith [Nat.pos_of_ne_zero (show 256 ^ s.length ≠ 0 by positivity)]

theorem beBytes_succ (n k : Nat) : beBytes (n + 1) k = beBytes n (k / 256) ++ [BitVec.ofNat 8 k] := by
  simp only [beBytes, List.range_succ, List.map_append, List.map_cons, List.map_nil]
  congr 1
  · apply List.map_congr_left
    intro i hi
    have hi' : i < n := List.mem_range.mp hi
    rw [Nat.div_div_eq_div_mul, ← pow_succ']
    congr 2
    have : n + 1 - 1 - i = n - 1 - i + 1 := by omega
    rw [this]
  · simp

theorem beNat_beBytes (n k : Nat) : beNat (beBytes n k) = k % 256 ^ n := by
  induction n generalizing k with
  | zero => simp [beBytes, beNat, Nat.mod_one]
  | succ n ih =>
    rw [beBytes_succ, beNat_append, ih]
    simp only [List.length_singleton, pow_one, beNat_cons, List.length_nil, pow_zero, mul_one, beNat_nil, add_zero,
      BitVec.toNat_ofNat]
    rw [show (256 : Nat) ^ (n + 1) = 256 * 256 ^ n from pow_succ' 256 n, Nat.mod_mul (x := k) (a := 256),
      show (2 : Nat) ^ 8 = 256 from rfl]
    omega

theorem beNat_injective {a b : Bytes} (hl : a.length = b.length) (h : beNat a = beNat b) : a = b := by
  induction a generalizing b with
  | nil => cases b with
    | nil => rfl
    | cons _ _ => simp at hl
  | cons x a ih => cases b with
    | nil => simp at hl
    | cons y b =>
      simp only [List.length_cons, Nat.add_right_cancel_iff] at hl
      rw [beNat_cons, beNat_cons, hl] at h
      have ha := beNat_lt a
      have hb := beNat_lt b
      rw [hl] at ha
      have hp : 0 < 256 ^ b.length := by positivity
      have hx : x.toNat = y.toNat := by
        have h1 := congrArg (· / 256 ^ b.length) h
        simp only [mul_comm _ (256 ^ b.length)] at h1
        rwa [Nat.mul_add_div hp, Nat.mul_add_div hp, Nat.div_eq_of_lt ha, Nat.div_eq_of_lt hb, add_zero, add_zero] at h1
      rw [BitVec.eq_of_toNat_eq hx, ih hl (by rw [hx] at h; omega)]

theorem beBytes_beNat (s : Bytes) : beBytes s.length (beNat s) = s :=
  beNat_injective (by simp) (by rw [beNat_beBytes, Nat.mod_eq_of_lt (beNat_lt s)])

/-! ## Reading and writing -/

theorem memRead_all (s : Bytes) (n : Nat) (h : s.length = n) : memRead s 0 n = s := by
  simp [memRead, ← h]

theorem readOperand_of_length (ks : KeySize) (op : Bytes) (h : op.length = ks.seed) : readOperand ks op = op :=
  memRead_all op ks.seed h

theorem seedSized_iff (ks : KeySize) (op : Bytes) : seedSized ks op = true ↔ op.length = ks.seed := by
  simp [seedSized]

end Sys2Proof.Machine
end

