-- ==== Sys2Proof/Laws/Encoding.lean ====
section
/-! SUPPORT. The packet (R60 to R68): header fields against header bytes, the opcode map by fields, whole packets and the
stream, and the header of a command. -/

namespace Sys2Proof.Machine

/-! ## Header fields (R61, R62) -/

/-- `H` is the big-endian number of the first eight bytes (R61). -/
theorem headerWord_toNat (p : Bytes) : (headerWord p).toNat = beNat (p.take 8) := by
  have h := beNat_lt (p.take 8)
  have hl : (p.take 8).length ≤ 8 := by simp
  have hp : 256 ^ (p.take 8).length ≤ 256 ^ 8 := Nat.pow_le_pow_right (by decide) hl
  rw [headerWord, BitVec.toNat_ofNat]
  exact Nat.mod_eq_of_lt (lt_of_lt_of_le h (by simpa using hp))

/-- The header fields are the header bytes (R61, R65). -/
theorem hdr_bytes (b0 b1 b2 b3 b4 b5 b6 b7 : Byte) (more : Bytes) :
    let h := headerWord (b0 :: b1 :: b2 :: b3 :: b4 :: b5 :: b6 :: b7 :: more)
    hdrOp h = b0 ∧ hdrAlen h = b1 ∧ hdrBlen h = b2 ∧ hdrRsv h = b3 ∧ (hdrLen h).toNat = beNat [b4, b5, b6, b7] := by
  intro h
  have hh : h.toNat = beNat [b0, b1, b2, b3, b4, b5, b6, b7] := headerWord_toNat ..
  have := b0.isLt; have := b1.isLt; have := b2.isLt; have := b3.isLt
  have := b4.isLt; have := b5.isLt; have := b6.isLt; have := b7.isLt
  simp only [beNat, List.foldl_cons, List.foldl_nil] at hh ⊢
  refine ⟨?_, ?_, ?_, ?_, ?_⟩ <;>
  simp only [← BitVec.toNat_inj, hdrOp, hdrAlen, hdrBlen, hdrRsv, hdrLen, BitVec.extractLsb'_toNat, hh, Nat.shiftRight_eq_div_pow] <;> omega

theorem append_eq_append {m n : Nat} (a c : BitVec m) (b d : BitVec n) : a ++ b = c ++ d ↔ a = c ∧ b = d := by
  constructor
  · intro h
    have h1 := congrArg (BitVec.extractLsb' n m) h
    have h2 := congrArg (BitVec.extractLsb' 0 n) h
    rw [BitVec.extractLsb'_append_eq_left, BitVec.extractLsb'_append_eq_left] at h1
    rw [BitVec.extractLsb'_append_eq_right, BitVec.extractLsb'_append_eq_right] at h2
    exact ⟨h1, h2⟩
  · rintro ⟨rfl, rfl⟩; rfl

/-- A header is its fields in order (R61). -/
theorem header_eq_append (h : BitVec 64) : h = hdrOp h ++ hdrAlen h ++ hdrBlen h ++ hdrRsv h ++ hdrLen h := by
  unfold hdrOp hdrAlen hdrBlen hdrRsv hdrLen
  rw [BitVec.extractLsb'_append_extractLsb'_eq_extractLsb' (by rfl), BitVec.extractLsb'_append_extractLsb'_eq_extractLsb' (by rfl),
    BitVec.extractLsb'_append_extractLsb'_eq_extractLsb' (by rfl), BitVec.extractLsb'_append_extractLsb'_eq_extractLsb' (by rfl)]
  exact BitVec.extractLsb'_eq_self.symm


/-- Two headers are equal when their fields are (R61). -/
theorem fields_eq (o1 a1 b1 r1 o2 a2 b2 r2 : Byte) (l1 l2 : BitVec 32) :
    o1 ++ a1 ++ b1 ++ r1 ++ l1 = o2 ++ a2 ++ b2 ++ r2 ++ l2 ↔ o1 = o2 ∧ a1 = a2 ∧ b1 = b2 ∧ r1 = r2 ∧ l1 = l2 := by
  rw [append_eq_append, append_eq_append, append_eq_append, append_eq_append, and_assoc, and_assoc, and_assoc]

theorem header_append_fields (op a b r : Byte) (l : BitVec 32) :
    hdrOp (op ++ a ++ b ++ r ++ l) = op ∧ hdrAlen (op ++ a ++ b ++ r ++ l) = a ∧ hdrBlen (op ++ a ++ b ++ r ++ l) = b ∧
    hdrRsv (op ++ a ++ b ++ r ++ l) = r ∧ hdrLen (op ++ a ++ b ++ r ++ l) = l := by
  have h := (fields_eq ..).mp (header_eq_append (op ++ a ++ b ++ r ++ l))
  exact ⟨h.1.symm, h.2.1.symm, h.2.2.1.symm, h.2.2.2.1.symm, h.2.2.2.2.symm⟩

/-- A mask and a match cut into fields (R61, R62). -/
theorem masked_fields (o a b r om am bm rm o' a' b' r' : Byte) (l lm l' : BitVec 32) :
    (o ++ a ++ b ++ r ++ l) &&& (om ++ am ++ bm ++ rm ++ lm) = o' ++ a' ++ b' ++ r' ++ l' ↔
      o &&& om = o' ∧ a &&& am = a' ∧ b &&& bm = b' ∧ r &&& rm = r' ∧ l &&& lm = l' := by
  rw [BitVec.and_append, BitVec.and_append, BitVec.and_append, BitVec.and_append, fields_eq]

theorem and_ff (x : Byte) : x &&& 0xff#8 = x := BitVec.and_allOnes
theorem and_ffffffff (x : BitVec 32) : x &&& 0xffffffff#32 = x := BitVec.and_allOnes

theorem hits_iff (h : BitVec 64) (m : Mnemonic) (om am bm rm o' a' b' r' : Byte) (lm l' : BitVec 32) :
    (⟨m, o' ++ a' ++ b' ++ r' ++ l', om ++ am ++ bm ++ rm ++ lm⟩ : OpRow).hits h = true ↔
      hdrOp h &&& om = o' ∧ hdrAlen h &&& am = a' ∧ hdrBlen h &&& bm = b' ∧ hdrRsv h &&& rm = r' ∧ hdrLen h &&& lm = l' := by
  rw [OpRow.hits, beq_iff_eq, ← masked_fields, ← header_eq_append]

theorem hits_instantiate (h : BitVec 64) :
    (⟨.instantiate, 0x0100000000000000#64, 0xFF0000FFFFFFFFFF#64⟩ : OpRow).hits h = true ↔
      hdrOp h = 0x01 ∧ hdrRsv h = 0 ∧ hdrLen h = 0 := by
  have := hits_iff h .instantiate 0xff 0 0 0xff 1 0 0 0 0xffffffff#32 0
  simpa [and_ff, and_ffffffff] using this

theorem hits_generate (h : BitVec 64) :
    (⟨.generate, 0x0200000000000000#64, 0xFFFFFFFF00000000#64⟩ : OpRow).hits h = true ↔
      hdrOp h = 0x02 ∧ hdrAlen h = 0 ∧ hdrBlen h = 0 ∧ hdrRsv h = 0 := by
  have := hits_iff h .generate 0xff 0xff 0xff 0xff 2 0 0 0 0 0
  simpa [and_ff, and_ffffffff] using this

theorem hits_generateAi (h : BitVec 64) :
    (⟨.generateAi, 0x0300000000000000#64, 0xFF00FFFF00000000#64⟩ : OpRow).hits h = true ↔
      hdrOp h = 0x03 ∧ hdrBlen h = 0 ∧ hdrRsv h = 0 := by
  have := hits_iff h .generateAi 0xff 0 0xff 0xff 3 0 0 0 0 0
  simpa [and_ff, and_ffffffff] using this

/-- The decoder in terms of the fields (R62, R63, R66). -/
theorem decodeHeader_fields (h : BitVec 64) :
    decodeHeader h =
      if hdrOp h = 0x01 ∧ hdrRsv h = 0 ∧ hdrLen h = 0 then some .instantiate
      else if hdrOp h = 0x02 ∧ hdrAlen h = 0 ∧ hdrBlen h = 0 ∧ hdrRsv h = 0 then some .generate
      else if hdrOp h = 0x03 ∧ hdrBlen h = 0 ∧ hdrRsv h = 0 then some .generateAi
      else none := by
  simp only [decodeHeader, opRows, List.find?_cons, List.find?_nil]
  split_ifs with h1 h2 h3
  · simp [(hits_instantiate h).mpr h1]
  · simp [Bool.eq_false_iff.mpr (mt (hits_instantiate h).mp h1), (hits_generate h).mpr h2]
  · simp [Bool.eq_false_iff.mpr (mt (hits_instantiate h).mp h1), Bool.eq_false_iff.mpr (mt (hits_generate h).mp h2),
      (hits_generateAi h).mpr h3]
  · simp [Bool.eq_false_iff.mpr (mt (hits_instantiate h).mp h1), Bool.eq_false_iff.mpr (mt (hits_generate h).mp h2),
      Bool.eq_false_iff.mpr (mt (hits_generateAi h).mp h3)]

/-! ## Packets -/

/-- Eight bytes at least: the header is there. -/
theorem header_cases (p : Bytes) (h : 8 ≤ p.length) :
    ∃ b0 b1 b2 b3 b4 b5 b6 b7 more, p = b0 :: b1 :: b2 :: b3 :: b4 :: b5 :: b6 :: b7 :: more := by
  match p, h with
  | b0 :: b1 :: b2 :: b3 :: b4 :: b5 :: b6 :: b7 :: more, _ => exact ⟨_, _, _, _, _, _, _, _, _, rfl⟩

/-- The length of a packet comes from its bytes 1 and 2 (R60, R68). -/
theorem packetLength_eq (p : Bytes) (h : 8 ≤ p.length) :
    packetLength (headerWord p) = 8 + (p.getD 1 0).toNat + (p.getD 2 0).toNat := by
  obtain ⟨b0, b1, b2, b3, b4, b5, b6, b7, more, rfl⟩ := header_cases p h
  obtain ⟨-, ha, hb, -, -⟩ := hdr_bytes b0 b1 b2 b3 b4 b5 b6 b7 more
  simp only [packetLength, ha, hb]
  rfl

theorem headerWord_append (p rest : Bytes) (h : 8 ≤ p.length) : headerWord (p ++ rest) = headerWord p := by
  rw [headerWord, headerWord, List.take_append_of_le_length h]

theorem whole_long {p : Bytes} (h : wholePacket p) : 8 ≤ p.length := by
  have : p.length = 8 + (p.getD 1 0).toNat + (p.getD 2 0).toNat := h
  omega

theorem whole_length {p : Bytes} (h : wholePacket p) : p.length = packetLength (headerWord p) := by
  rw [packetLength_eq p (whole_long h)]; exact h

/-- A whole packet is split off the stream as it is (R68). -/
theorem frame_of_wholePacket {p : Bytes} (h : wholePacket p) (rest : Bytes) : frame (p ++ rest) = some (p, rest) := by
  have hl := (whole_long h)
  have he := whole_length h
  unfold frame
  rw [headerWord_append p rest hl, ← he, List.length_append, if_neg (by omega), if_neg (by omega),
    List.take_left' rfl, List.drop_left' rfl]

/-- What is split off the stream is a whole packet (R68). -/
theorem wholePacket_of_frame {bs p rest : Bytes} (h : frame bs = some (p, rest)) : wholePacket p ∧ bs = p ++ rest := by
  unfold frame at h
  split_ifs at h with h1 h2
  simp only [Option.some.injEq, Prod.mk.injEq] at h
  obtain ⟨rfl, rfl⟩ := h
  refine ⟨?_, (List.take_append_drop _ _).symm⟩
  have hp := packetLength_eq bs (by omega)
  obtain ⟨b0, b1, b2, b3, b4, b5, b6, b7, more, rfl⟩ := header_cases bs (by omega)
  obtain ⟨k, hk⟩ : ∃ k, packetLength (headerWord (b0 :: b1 :: b2 :: b3 :: b4 :: b5 :: b6 :: b7 :: more)) = k + 8 :=
    ⟨_, (Nat.sub_add_cancel (by omega)).symm⟩
  rw [wholePacket, List.length_take, Nat.min_eq_left (by omega)]
  rw [hk] at hp ⊢
  exact hp

theorem frame_eq_none_iff (bs : Bytes) :
    frame bs = none ↔ bs.length < 8 ∨ bs.length < 8 + (bs.getD 1 0).toNat + (bs.getD 2 0).toNat := by
  unfold frame
  by_cases h1 : bs.length < 8
  · simp [h1]
  · rw [← packetLength_eq bs (by omega)]
    by_cases h2 : bs.length < packetLength (headerWord bs) <;> simp [h1, h2]

/-- Decoding a whole packet (R63). -/
theorem decode_wholePacket {p : Bytes} (h : wholePacket p) :
    decode p = match decodeHeader (headerWord p) with
      | none => .error .illegalHeader
      | some m => .ok (assembleOperands m p) := by
  have hl := (whole_long h)
  have he := whole_length h
  unfold decode
  rw [if_neg (by omega), if_neg (by omega)]
  exact if_neg (by omega)

theorem wholePacket_of_decode {p : Bytes} {i : Instr} (h : decode p = .ok i) :
    wholePacket p ∧ ∃ m, decodeHeader (headerWord p) = some m ∧ i = assembleOperands m p := by
  unfold decode at h
  split_ifs at h with h1 h2 h3
  have hw : wholePacket p := by
    have := packetLength_eq p (by omega)
    rw [wholePacket]; omega
  refine ⟨hw, ?_⟩
  cases hd : decodeHeader (headerWord p) with
  | none => simp [hd] at h
  | some m => simp only [hd, Except.ok.injEq] at h; exact ⟨m, rfl, h.symm⟩

/-! ## Encoding -/

theorem headerWord_beBytes (h : BitVec 64) (rest : Bytes) : headerWord (beBytes 8 h.toNat ++ rest) = h := by
  apply BitVec.eq_of_toNat_eq
  rw [headerWord_toNat, List.take_left' (length_beBytes 8 _), beNat_beBytes]
  exact Nat.mod_eq_of_lt (by have := h.isLt; omega)

theorem headerWord_encode (i : Instr) : headerWord (encode i) = i.header := headerWord_beBytes ..

theorem encode_length (i : Instr) : (encode i).length = 8 + i.operands.length := by
  simp [encode]

theorem encode_drop (i : Instr) : (encode i).drop 8 = i.operands := List.drop_left' (length_beBytes 8 _)

/-- The fields of a command's header (R61, R62). -/
theorem header_fields_of_build (op : Byte) (a b : Nat) (len : BitVec 32) :
    hdrOp (buildHeader op a b len) = op ∧ hdrAlen (buildHeader op a b len) = BitVec.ofNat 8 a ∧
    hdrBlen (buildHeader op a b len) = BitVec.ofNat 8 b ∧ hdrRsv (buildHeader op a b len) = 0 ∧
    hdrLen (buildHeader op a b len) = len := header_append_fields ..

theorem toNat_ofNat_byte {n : Nat} (h : n ≤ 255) : (BitVec.ofNat 8 n).toNat = n := by
  rw [BitVec.toNat_ofNat]; omega

end Sys2Proof.Machine
end

