-- ==== Sys2Proof/Laws/State.lean ====
section
/-! SUPPORT. One lemma per field per shared update of the state, each true by rfl, so that no proof unfolds an update. -/

namespace Sys2Proof.Machine

/-! ## Noting a transfer -/

@[simp] theorem note_ks (s : State) (e : Event) : (s.note e).ks = s.ks := rfl
@[simp] theorem note_key (s : State) (e : Event) : (s.note e).key = s.key := rfl
@[simp] theorem note_v (s : State) (e : Event) : (s.note e).v = s.v := rfl
@[simp] theorem note_inst (s : State) (e : Event) : (s.note e).inst = s.inst := rfl
@[simp] theorem note_phase (s : State) (e : Event) : (s.note e).phase = s.phase := rfl
@[simp] theorem note_stage (s : State) (e : Event) : (s.note e).stage = s.stage := rfl
@[simp] theorem note_rem (s : State) (e : Event) : (s.note e).rem = s.rem := rfl
@[simp] theorem note_lenr (s : State) (e : Event) : (s.note e).lenr = s.lenr := rfl
@[simp] theorem note_pd (s : State) (e : Event) : (s.note e).pd = s.pd := rfl
@[simp] theorem note_pdv (s : State) (e : Event) : (s.note e).pdv = s.pdv := rfl
@[simp] theorem note_temp (s : State) (e : Event) : (s.note e).temp = s.temp := rfl
@[simp] theorem note_blkr (s : State) (e : Event) : (s.note e).blkr = s.blkr := rfl
@[simp] theorem note_rcode (s : State) (e : Event) : (s.note e).rcode = s.rcode := rfl
@[simp] theorem note_rstI (s : State) (e : Event) : (s.note e).rstI = s.rstI := rfl
@[simp] theorem note_inflight (s : State) (e : Event) : (s.note e).inflight = s.inflight := rfl
@[simp] theorem note_cmd (s : State) (e : Event) : (s.note e).cmd = s.cmd := rfl
@[simp] theorem note_outReady (s : State) (e : Event) : (s.note e).outReady = s.outReady := rfl
@[simp] theorem note_rspReady (s : State) (e : Event) : (s.note e).rspReady = s.rspReady := rfl
@[simp] theorem note_creqReady (s : State) (e : Event) : (s.note e).creqReady = s.creqReady := rfl
@[simp] theorem note_crspValid (s : State) (e : Event) : (s.note e).crspValid = s.crspValid := rfl
@[simp] theorem note_moves (s : State) (e : Event) : (s.note e).moves = s.moves := rfl
@[simp] theorem note_trace (s : State) (e : Event) : (s.note e).trace = s.trace ++ [e] := rfl

/-! ## Raising an error (R144) -/

@[simp] theorem raiseError_ks (s : State) (c : ErrorCause) : (s.raiseError c).ks = s.ks := rfl
@[simp] theorem raiseError_key (s : State) (c : ErrorCause) : (s.raiseError c).key = s.key := rfl
@[simp] theorem raiseError_v (s : State) (c : ErrorCause) : (s.raiseError c).v = s.v := rfl
@[simp] theorem raiseError_inst (s : State) (c : ErrorCause) : (s.raiseError c).inst = s.inst := rfl
@[simp] theorem raiseError_phase (s : State) (c : ErrorCause) : (s.raiseError c).phase = .resp := rfl
@[simp] theorem raiseError_stage (s : State) (c : ErrorCause) : (s.raiseError c).stage = s.stage := rfl
@[simp] theorem raiseError_rem (s : State) (c : ErrorCause) : (s.raiseError c).rem = s.rem := rfl
@[simp] theorem raiseError_lenr (s : State) (c : ErrorCause) : (s.raiseError c).lenr = s.lenr := rfl
@[simp] theorem raiseError_pd (s : State) (c : ErrorCause) : (s.raiseError c).pd = s.pd := rfl
@[simp] theorem raiseError_pdv (s : State) (c : ErrorCause) : (s.raiseError c).pdv = s.pdv := rfl
@[simp] theorem raiseError_temp (s : State) (c : ErrorCause) : (s.raiseError c).temp = s.temp := rfl
@[simp] theorem raiseError_blkr (s : State) (c : ErrorCause) : (s.raiseError c).blkr = s.blkr := rfl
@[simp] theorem raiseError_rcode (s : State) (c : ErrorCause) : (s.raiseError c).rcode = c.code := rfl
@[simp] theorem raiseError_rstI (s : State) (c : ErrorCause) : (s.raiseError c).rstI = s.rstI := rfl
@[simp] theorem raiseError_inflight (s : State) (c : ErrorCause) : (s.raiseError c).inflight = s.inflight := rfl
@[simp] theorem raiseError_cmd (s : State) (c : ErrorCause) : (s.raiseError c).cmd = s.cmd := rfl
@[simp] theorem raiseError_outReady (s : State) (c : ErrorCause) : (s.raiseError c).outReady = s.outReady := rfl
@[simp] theorem raiseError_rspReady (s : State) (c : ErrorCause) : (s.raiseError c).rspReady = s.rspReady := rfl
@[simp] theorem raiseError_creqReady (s : State) (c : ErrorCause) : (s.raiseError c).creqReady = s.creqReady := rfl
@[simp] theorem raiseError_crspValid (s : State) (c : ErrorCause) : (s.raiseError c).crspValid = s.crspValid := rfl
@[simp] theorem raiseError_moves (s : State) (c : ErrorCause) : (s.raiseError c).moves = s.moves := rfl
@[simp] theorem raiseError_trace (s : State) (c : ErrorCause) : (s.raiseError c).trace = s.trace := rfl

/-! ## Delivering the response (R123) -/

@[simp] theorem deliverResponse_ks (s : State) : (s.deliverResponse).ks = s.ks := rfl
@[simp] theorem deliverResponse_key (s : State) : (s.deliverResponse).key = s.key := rfl
@[simp] theorem deliverResponse_v (s : State) : (s.deliverResponse).v = s.v := rfl
@[simp] theorem deliverResponse_inst (s : State) : (s.deliverResponse).inst = s.inst := rfl
@[simp] theorem deliverResponse_phase (s : State) : (s.deliverResponse).phase = .idle := rfl
@[simp] theorem deliverResponse_stage (s : State) : (s.deliverResponse).stage = s.stage := rfl
@[simp] theorem deliverResponse_rem (s : State) : (s.deliverResponse).rem = s.rem := rfl
@[simp] theorem deliverResponse_lenr (s : State) : (s.deliverResponse).lenr = 0 := rfl
@[simp] theorem deliverResponse_pd (s : State) : (s.deliverResponse).pd = zeros s.ks.seed := rfl
@[simp] theorem deliverResponse_pdv (s : State) : (s.deliverResponse).pdv = false := rfl
@[simp] theorem deliverResponse_temp (s : State) : (s.deliverResponse).temp = s.temp := rfl
@[simp] theorem deliverResponse_blkr (s : State) : (s.deliverResponse).blkr = s.blkr := rfl
@[simp] theorem deliverResponse_rcode (s : State) : (s.deliverResponse).rcode = codeOk := rfl
@[simp] theorem deliverResponse_rstI (s : State) : (s.deliverResponse).rstI = s.rstI := rfl
@[simp] theorem deliverResponse_inflight (s : State) : (s.deliverResponse).inflight = s.inflight := rfl
@[simp] theorem deliverResponse_cmd (s : State) : (s.deliverResponse).cmd = s.cmd := rfl
@[simp] theorem deliverResponse_outReady (s : State) : (s.deliverResponse).outReady = s.outReady := rfl
@[simp] theorem deliverResponse_rspReady (s : State) : (s.deliverResponse).rspReady = s.rspReady := rfl
@[simp] theorem deliverResponse_creqReady (s : State) : (s.deliverResponse).creqReady = s.creqReady := rfl
@[simp] theorem deliverResponse_crspValid (s : State) : (s.deliverResponse).crspValid = s.crspValid := rfl
@[simp] theorem deliverResponse_moves (s : State) : (s.deliverResponse).moves = s.moves := rfl
@[simp] theorem deliverResponse_trace (s : State) : (s.deliverResponse).trace = s.trace ++ [.rsp s.rcode] := rfl

/-! ## Reset (R26, R129) -/

@[simp] theorem applyReset_ks (s : State) (h : Bool) : (s.applyReset h).ks = s.ks := rfl
@[simp] theorem applyReset_key (s : State) (h : Bool) : (s.applyReset h).key = zeros s.ks.bytes := rfl
@[simp] theorem applyReset_v (s : State) (h : Bool) : (s.applyReset h).v = zeros 16 := rfl
@[simp] theorem applyReset_inst (s : State) (h : Bool) : (s.applyReset h).inst = false := rfl
@[simp] theorem applyReset_phase (s : State) (h : Bool) : (s.applyReset h).phase = .idle := rfl
@[simp] theorem applyReset_stage (s : State) (h : Bool) : (s.applyReset h).stage = .inst := rfl
@[simp] theorem applyReset_rem (s : State) (h : Bool) : (s.applyReset h).rem = 0 := rfl
@[simp] theorem applyReset_lenr (s : State) (h : Bool) : (s.applyReset h).lenr = 0 := rfl
@[simp] theorem applyReset_pd (s : State) (h : Bool) : (s.applyReset h).pd = zeros s.ks.seed := rfl
@[simp] theorem applyReset_pdv (s : State) (h : Bool) : (s.applyReset h).pdv = false := rfl
@[simp] theorem applyReset_temp (s : State) (h : Bool) : (s.applyReset h).temp = zeros s.ks.seed := rfl
@[simp] theorem applyReset_blkr (s : State) (h : Bool) : (s.applyReset h).blkr = zeros 16 := rfl
@[simp] theorem applyReset_rcode (s : State) (h : Bool) : (s.applyReset h).rcode = codeOk := rfl
@[simp] theorem applyReset_rstI (s : State) (h : Bool) : (s.applyReset h).rstI = (if h then .asserted else .released) := rfl
@[simp] theorem applyReset_inflight (s : State) (h : Bool) : (s.applyReset h).inflight = none := rfl
@[simp] theorem applyReset_cmd (s : State) (h : Bool) : (s.applyReset h).cmd = [] := rfl
@[simp] theorem applyReset_outReady (s : State) (h : Bool) : (s.applyReset h).outReady = s.outReady := rfl
@[simp] theorem applyReset_rspReady (s : State) (h : Bool) : (s.applyReset h).rspReady = s.rspReady := rfl
@[simp] theorem applyReset_creqReady (s : State) (h : Bool) : (s.applyReset h).creqReady = s.creqReady := rfl
@[simp] theorem applyReset_crspValid (s : State) (h : Bool) : (s.applyReset h).crspValid = s.crspValid := rfl
@[simp] theorem applyReset_moves (s : State) (h : Bool) : (s.applyReset h).moves = s.moves := rfl
@[simp] theorem applyReset_trace (s : State) (h : Bool) : (s.applyReset h).trace = s.trace ++ [.rst] := rfl

/-! ## Releasing a held reset (R160) -/

@[simp] theorem releaseReset_ks (s : State) : (s.releaseReset).ks = s.ks := rfl
@[simp] theorem releaseReset_key (s : State) : (s.releaseReset).key = s.key := rfl
@[simp] theorem releaseReset_v (s : State) : (s.releaseReset).v = s.v := rfl
@[simp] theorem releaseReset_inst (s : State) : (s.releaseReset).inst = s.inst := rfl
@[simp] theorem releaseReset_phase (s : State) : (s.releaseReset).phase = s.phase := rfl
@[simp] theorem releaseReset_stage (s : State) : (s.releaseReset).stage = s.stage := rfl
@[simp] theorem releaseReset_rem (s : State) : (s.releaseReset).rem = s.rem := rfl
@[simp] theorem releaseReset_lenr (s : State) : (s.releaseReset).lenr = s.lenr := rfl
@[simp] theorem releaseReset_pd (s : State) : (s.releaseReset).pd = s.pd := rfl
@[simp] theorem releaseReset_pdv (s : State) : (s.releaseReset).pdv = s.pdv := rfl
@[simp] theorem releaseReset_temp (s : State) : (s.releaseReset).temp = s.temp := rfl
@[simp] theorem releaseReset_blkr (s : State) : (s.releaseReset).blkr = s.blkr := rfl
@[simp] theorem releaseReset_rcode (s : State) : (s.releaseReset).rcode = s.rcode := rfl
@[simp] theorem releaseReset_rstI (s : State) : (s.releaseReset).rstI = (if s.rstI = .asserted then .released else s.rstI) := rfl
@[simp] theorem releaseReset_inflight (s : State) : (s.releaseReset).inflight = s.inflight := rfl
@[simp] theorem releaseReset_cmd (s : State) : (s.releaseReset).cmd = s.cmd := rfl
@[simp] theorem releaseReset_outReady (s : State) : (s.releaseReset).outReady = s.outReady := rfl
@[simp] theorem releaseReset_rspReady (s : State) : (s.releaseReset).rspReady = s.rspReady := rfl
@[simp] theorem releaseReset_creqReady (s : State) : (s.releaseReset).creqReady = s.creqReady := rfl
@[simp] theorem releaseReset_crspValid (s : State) : (s.releaseReset).crspValid = s.crspValid := rfl
@[simp] theorem releaseReset_moves (s : State) : (s.releaseReset).moves = s.moves := rfl
@[simp] theorem releaseReset_trace (s : State) : (s.releaseReset).trace = s.trace := rfl

/-! ## The split of an Update (R122) -/

@[simp] theorem mixSplit_ks (s : State) : (s.mixSplit).ks = s.ks := rfl
@[simp] theorem mixSplit_key (s : State) : (s.mixSplit).key = memRead (if s.pdv then xorBytes s.temp s.pd else s.temp) 0 s.ks.bytes := rfl
@[simp] theorem mixSplit_v (s : State) : (s.mixSplit).v = memRead (if s.pdv then xorBytes s.temp s.pd else s.temp) s.ks.bytes 16 := rfl
@[simp] theorem mixSplit_inst (s : State) : (s.mixSplit).inst = s.inst := rfl
@[simp] theorem mixSplit_phase (s : State) : (s.mixSplit).phase = s.phase := rfl
@[simp] theorem mixSplit_stage (s : State) : (s.mixSplit).stage = s.stage := rfl
@[simp] theorem mixSplit_rem (s : State) : (s.mixSplit).rem = s.rem := rfl
@[simp] theorem mixSplit_lenr (s : State) : (s.mixSplit).lenr = s.lenr := rfl
@[simp] theorem mixSplit_pd (s : State) : (s.mixSplit).pd = s.pd := rfl
@[simp] theorem mixSplit_pdv (s : State) : (s.mixSplit).pdv = s.pdv := rfl
@[simp] theorem mixSplit_temp (s : State) : (s.mixSplit).temp = zeros s.ks.seed := rfl
@[simp] theorem mixSplit_blkr (s : State) : (s.mixSplit).blkr = s.blkr := rfl
@[simp] theorem mixSplit_rcode (s : State) : (s.mixSplit).rcode = s.rcode := rfl
@[simp] theorem mixSplit_rstI (s : State) : (s.mixSplit).rstI = s.rstI := rfl
@[simp] theorem mixSplit_inflight (s : State) : (s.mixSplit).inflight = s.inflight := rfl
@[simp] theorem mixSplit_cmd (s : State) : (s.mixSplit).cmd = s.cmd := rfl
@[simp] theorem mixSplit_outReady (s : State) : (s.mixSplit).outReady = s.outReady := rfl
@[simp] theorem mixSplit_rspReady (s : State) : (s.mixSplit).rspReady = s.rspReady := rfl
@[simp] theorem mixSplit_creqReady (s : State) : (s.mixSplit).creqReady = s.creqReady := rfl
@[simp] theorem mixSplit_crspValid (s : State) : (s.mixSplit).crspValid = s.crspValid := rfl
@[simp] theorem mixSplit_moves (s : State) : (s.mixSplit).moves = s.moves := rfl
@[simp] theorem mixSplit_trace (s : State) : (s.mixSplit).trace = s.trace := rfl

/-! ## Leaving the delays out -/

@[simp] theorem withoutDelays_ks (s : State) : (s.withoutDelays).ks = s.ks := rfl
@[simp] theorem withoutDelays_key (s : State) : (s.withoutDelays).key = s.key := rfl
@[simp] theorem withoutDelays_v (s : State) : (s.withoutDelays).v = s.v := rfl
@[simp] theorem withoutDelays_inst (s : State) : (s.withoutDelays).inst = s.inst := rfl
@[simp] theorem withoutDelays_phase (s : State) : (s.withoutDelays).phase = s.phase := rfl
@[simp] theorem withoutDelays_stage (s : State) : (s.withoutDelays).stage = s.stage := rfl
@[simp] theorem withoutDelays_rem (s : State) : (s.withoutDelays).rem = s.rem := rfl
@[simp] theorem withoutDelays_lenr (s : State) : (s.withoutDelays).lenr = s.lenr := rfl
@[simp] theorem withoutDelays_pd (s : State) : (s.withoutDelays).pd = s.pd := rfl
@[simp] theorem withoutDelays_pdv (s : State) : (s.withoutDelays).pdv = s.pdv := rfl
@[simp] theorem withoutDelays_temp (s : State) : (s.withoutDelays).temp = s.temp := rfl
@[simp] theorem withoutDelays_blkr (s : State) : (s.withoutDelays).blkr = s.blkr := rfl
@[simp] theorem withoutDelays_rcode (s : State) : (s.withoutDelays).rcode = s.rcode := rfl
@[simp] theorem withoutDelays_rstI (s : State) : (s.withoutDelays).rstI = s.rstI := rfl
@[simp] theorem withoutDelays_inflight (s : State) : (s.withoutDelays).inflight = s.inflight := rfl
@[simp] theorem withoutDelays_cmd (s : State) : (s.withoutDelays).cmd = s.cmd := rfl
@[simp] theorem withoutDelays_outReady (s : State) : (s.withoutDelays).outReady = true := rfl
@[simp] theorem withoutDelays_rspReady (s : State) : (s.withoutDelays).rspReady = true := rfl
@[simp] theorem withoutDelays_creqReady (s : State) : (s.withoutDelays).creqReady = true := rfl
@[simp] theorem withoutDelays_crspValid (s : State) : (s.withoutDelays).crspValid = true := rfl
@[simp] theorem withoutDelays_moves (s : State) : (s.withoutDelays).moves = [] := rfl
@[simp] theorem withoutDelays_trace (s : State) : (s.withoutDelays).trace = s.trace := rfl

end Sys2Proof.Machine
end

