-- ==== Sys2Proof/Laws/Step.lean ====
section
/-! SUPPORT. What a step can do: inversion lemmas for the meanings, for accepting a packet, for the micro-steps and for the
step, each said once. -/

namespace Sys2Proof.Machine

variable {E : Cipher} {s t : State} {i : Instr}

/-! ## The meanings of the commands (R116) -/

/-- The state in which INSTANTIATE is accepted (R116). -/
abbrev State.acceptedInstantiate (s : State) (ent pers : Bytes) : State :=
  { s with
    inst := false, key := zeros s.ks.bytes, v := zeros 16, pd := seedOf s.ks ent pers, pdv := true,
    stage := .inst, rem := seedWord s.ks, lenr := 0, rcode := codeOk, phase := .fill }

/-- The state in which GENERATE is accepted (R116). -/
abbrev State.acceptedGenerate (s : State) (len : BitVec 32) : State :=
  { s with
    pd := noProvidedData s.ks, pdv := false, stage := .gen, rem := len, lenr := len, rcode := codeOk, phase := .fill }

/-- The state in which GENERATE_AI is accepted (R116). -/
abbrev State.acceptedGenerateAi (s : State) (len : BitVec 32) (add : Bytes) : State :=
  { s with
    pd := readOperand s.ks add, pdv := true, stage := .pre, rem := seedWord s.ks, lenr := len, rcode := codeOk,
    phase := .fill }

theorem execInstantiate_accepted (ent pers : Bytes) (he : ent.length = s.ks.seed) (hp : pers.length = s.ks.seed) :
    execInstantiate ent pers s = .next (s.acceptedInstantiate ent pers) := by
  simp [execInstantiate, seedSized, he, hp]

theorem execGenerate_accepted (len : BitVec 32) (h : s.inst = true) :
    execGenerate len s = .next (s.acceptedGenerate len) := by
  simp [execGenerate, h]

theorem execGenerateAi_accepted (len : BitVec 32) (add : Bytes) (h : s.inst = true) (ha : add.length = s.ks.seed) :
    execGenerateAi len add s = .next (s.acceptedGenerateAi len add) := by
  simp [execGenerateAi, seedSized, h, ha]

/-- Accepting a command always answers a next state: one of the three accepted states, or the entry of an error. -/
theorem exec_cases (i : Instr) (s : State) :
    (∃ ent pers, i = .instantiate ent pers ∧ ent.length = s.ks.seed ∧ pers.length = s.ks.seed ∧
      exec i s = .next (s.acceptedInstantiate ent pers)) ∨
    (∃ len, i = .generate len ∧ s.inst = true ∧ exec i s = .next (s.acceptedGenerate len)) ∨
    (∃ len add, i = .generateAi len add ∧ s.inst = true ∧ add.length = s.ks.seed ∧
      exec i s = .next (s.acceptedGenerateAi len add)) ∨
    (∃ c, exec i s = .next (s.raiseError c) ∧
      ∀ E, commandEffect s.ks E i s.generator = refuseCommand s.generator c) := by
  cases i with
  | instantiate ent pers =>
    by_cases h : (seedSized s.ks ent && seedSized s.ks pers) = true
    · have h' := h
      simp only [Bool.and_eq_true, seedSized_iff] at h'
      exact .inl ⟨ent, pers, rfl, h'.1, h'.2, execInstantiate_accepted ent pers h'.1 h'.2⟩
    · refine .inr (.inr (.inr ⟨.invalidSeedLength, ?_⟩))
      simp [exec, execInstantiate, commandEffect, cmdInstantiate, h, refuseCommand]
  | generate len =>
    by_cases h : s.inst = true
    · exact .inr (.inl ⟨len, rfl, h, execGenerate_accepted len h⟩)
    · refine .inr (.inr (.inr ⟨.notInstantiated, ?_⟩))
      simp [exec, execGenerate, commandEffect, cmdGenerate, h, refuseCommand, State.generator]
  | generateAi len add =>
    by_cases h : s.inst = true
    · by_cases ha : add.length = s.ks.seed
      · exact .inr (.inr (.inl ⟨len, add, rfl, h, ha, execGenerateAi_accepted len add h ha⟩))
      · refine .inr (.inr (.inr ⟨.invalidSeedLength, ?_⟩))
        simp [exec, execGenerateAi, commandEffect, cmdGenerateAi, h, ha, seedSized, refuseCommand, State.generator]
    · refine .inr (.inr (.inr ⟨.notInstantiated, ?_⟩))
      simp [exec, execGenerateAi, commandEffect, cmdGenerateAi, h, refuseCommand, State.generator]

/-! ## Accepting a packet (R116) -/

/-- The state in which the next packet has been taken off CMD. -/
abbrev State.taken (s : State) (p rest : Bytes) : State := State.note { s with cmd := rest } (.cmd p)

theorem acceptCommand_inactive (hr : s.rstI = .inactive) : acceptCommand s = match s.fetch with
    | none => .next s
    | some (.error _, t) => .next (t.raiseError .illegalCommand)
    | some (.ok i, t) => exec i t := by
  cases s; cases hr; rfl

/-- Out of reset, phase `IDLE` waits, refuses an illegal packet, or accepts a command. -/
theorem acceptCommand_cases (hr : s.rstI = .inactive) :
    (frame s.cmd = none ∧ acceptCommand s = .next s) ∨
    (∃ p rest why, frame s.cmd = some (p, rest) ∧ decode p = .error why ∧
      acceptCommand s = .next ((s.taken p rest).raiseError .illegalCommand)) ∨
    (∃ p rest i, frame s.cmd = some (p, rest) ∧ decode p = .ok i ∧ acceptCommand s = exec i (s.taken p rest)) := by
  rw [acceptCommand_inactive hr]
  unfold State.fetch
  cases hf : frame s.cmd with
  | none => exact .inl ⟨rfl, rfl⟩
  | some pr =>
    obtain ⟨p, rest⟩ := pr
    cases hd : decode p with
    | error why => exact .inr (.inl ⟨p, rest, why, rfl, hd, by simp [hd]⟩)
    | ok i => exact .inr (.inr ⟨p, rest, i, rfl, hd, by simp [hd]⟩)

/-- In a held reset, phase `IDLE` waits (R160). -/
theorem acceptCommand_asserted (hr : s.rstI = .asserted) : acceptCommand s = .next s := by
  simp only [acceptCommand, hr]

/-- From the moment of release the block begins to run (R160). -/
theorem acceptCommand_released (hr : s.rstI = .released) :
    acceptCommand s = .next { s with rstI := .inactive } := by
  simp only [acceptCommand, hr]

/-- What accepting can do to the registers: nothing; or leave the moment of release; or take the packet, and then go to one
of the accepted states or to an error. -/
theorem acceptCommand_next (h : acceptCommand s = .next t) :
    t = s ∨ (s.rstI = .released ∧ t = { s with rstI := .inactive }) ∨
    ∃ p rest, s.rstI = .inactive ∧ frame s.cmd = some (p, rest) ∧
      ((∃ c, t = (s.taken p rest).raiseError c) ∨
       (∃ ent pers, decode p = .ok (.instantiate ent pers) ∧ ent.length = s.ks.seed ∧ pers.length = s.ks.seed ∧
         t = (s.taken p rest).acceptedInstantiate ent pers) ∨
       (∃ len, decode p = .ok (.generate len) ∧ s.inst = true ∧ t = (s.taken p rest).acceptedGenerate len) ∨
       (∃ len add, decode p = .ok (.generateAi len add) ∧ s.inst = true ∧ add.length = s.ks.seed ∧
         t = (s.taken p rest).acceptedGenerateAi len add)) := by
  cases hr : s.rstI with
  | asserted => rw [acceptCommand_asserted hr] at h; cases h; exact .inl rfl
  | released => rw [acceptCommand_released hr] at h; cases h; exact .inr (.inl ⟨rfl, rfl⟩)
  | inactive =>
  rcases acceptCommand_cases hr with ⟨-, ha⟩ | ⟨p, rest, why, hf, -, ha⟩ | ⟨p, rest, i, hf, hd, ha⟩
  · rw [ha] at h; cases h; exact .inl rfl
  · rw [ha] at h; cases h; exact .inr (.inr ⟨p, rest, rfl, hf, .inl ⟨_, rfl⟩⟩)
  · refine .inr (.inr ⟨p, rest, rfl, hf, ?_⟩)
    rw [ha] at h
    rcases exec_cases i (s.taken p rest) with
      ⟨ent, pers, rfl, he, hp, hx⟩ | ⟨len, rfl, hi, hx⟩ | ⟨len, add, rfl, hi, hl, hx⟩ | ⟨c, hx, -⟩ <;>
      rw [hx] at h <;> cases h
    · exact .inr (.inl ⟨ent, pers, hd, he, hp, rfl⟩)
    · exact .inr (.inr (.inl ⟨len, hd, hi, rfl⟩))
    · exact .inr (.inr (.inr ⟨len, add, hd, hi, hl, rfl⟩))
    · exact .inl ⟨c, rfl⟩

/-! ## The micro-steps (R117 to R123) -/

theorem acceptCommand_answers (s : State) : ∃ t, acceptCommand s = .next t := by
  cases hr : s.rstI with
  | asserted => exact ⟨_, acceptCommand_asserted hr⟩
  | released => exact ⟨_, acceptCommand_released hr⟩
  | inactive =>
  rcases acceptCommand_cases hr with ⟨-, ha⟩ | ⟨p, rest, why, -, -, ha⟩ | ⟨p, rest, i, -, -, ha⟩
  · exact ⟨_, ha⟩
  · exact ⟨_, ha⟩
  · rw [ha]
    rcases exec_cases i (s.taken p rest) with
      ⟨_, _, _, _, _, hx⟩ | ⟨_, _, _, hx⟩ | ⟨_, _, _, _, _, hx⟩ | ⟨_, hx, _⟩ <;> exact ⟨_, hx⟩

/-- What a micro-step can do, by its phase. -/
theorem microStep_cases (h : microStep E (acceptCommand s) s = .next t) :
    (s.phase = .idle ∧ acceptCommand s = .next t) ∨
    (s.phase = .fill ∧ s.rem ≠ 0 ∧ t = { s with phase := .inc }) ∨
    (s.phase = .fill ∧ s.rem = 0 ∧ s.stage = .gen ∧ t = { s with stage := .post, rem := seedWord s.ks }) ∨
    (s.phase = .fill ∧ s.rem = 0 ∧ s.stage ≠ .gen ∧ t = { s with phase := .mix }) ∨
    (s.phase = .inc ∧ t = { s with v := incr s.v, phase := .req }) ∨
    (s.phase = .req ∧ s.creqReady = true ∧
      t = State.note { s with phase := .wait, inflight := some s.request } (.creq s.request)) ∨
    (s.phase = .req ∧ s.creqReady = false ∧ t = s) ∨
    (s.phase = .wait ∧ (s.inflight = none ∨ s.crspValid = false) ∧ t = s) ∨
    (∃ q, s.phase = .wait ∧ s.inflight = some q ∧ s.crspValid = true ∧ s.stage = .gen ∧
      t = State.note { s with inflight := none, blkr := padBlock (E q.key q.block).toList s.chunk, phase := .emit }
        (.crsp (E q.key q.block).toList)) ∨
    (∃ q, s.phase = .wait ∧ s.inflight = some q ∧ s.crspValid = true ∧ s.stage ≠ .gen ∧
      t = State.note { s with
        inflight := none,
        temp := memWrite s.temp (s.ks.seed - s.rem.toNat) ((E q.key q.block).toList.take s.chunk),
        rem := s.remNext, phase := .fill } (.crsp (E q.key q.block).toList)) ∨
    (s.phase = .emit ∧ s.outReady = true ∧
      t = State.note { s with rem := s.remNext, blkr := zeros 16, phase := .fill } (.out s.beat)) ∨
    (s.phase = .emit ∧ s.outReady = false ∧ t = s) ∨
    (s.phase = .mix ∧ s.stage = .inst ∧ t = { s.mixSplit with inst := true, phase := .resp }) ∨
    (s.phase = .mix ∧ s.stage = .pre ∧ t = { s.mixSplit with stage := .gen, rem := s.lenr, phase := .fill }) ∨
    (s.phase = .mix ∧ s.stage = .post ∧ t = { s.mixSplit with phase := .resp }) ∨
    (s.phase = .resp ∧ s.rspReady = true ∧ t = s.deliverResponse) ∨
    (s.phase = .resp ∧ s.rspReady = false ∧ t = s) := by
  unfold microStep at h
  cases hp : s.phase with
  | idle => simp only [hp] at h; simpa using h
  | fill =>
    simp only [hp, microFill, Host.Outcome.next.injEq] at h
    split_ifs at h with h1 h2 <;> subst h <;> simp_all
  | inc => simp only [hp, microInc, Host.Outcome.next.injEq] at h; simp [← h]
  | req =>
    simp only [hp, microReq, Host.Outcome.next.injEq] at h
    split_ifs at h with h1 <;> subst h <;> simp_all
  | wait =>
    simp only [hp, microWait, State.takeAnswer, Host.Outcome.next.injEq] at h
    cases hq : s.inflight with
    | none => simp only [hq] at h; simp [h]
    | some q =>
      simp only [hq] at h
      split_ifs at h with h1 h2 <;> subst h <;> simp_all
  | emit =>
    simp only [hp, microEmit, Host.Outcome.next.injEq] at h
    split_ifs at h with h1 <;> subst h <;> simp_all
  | mix =>
    simp only [hp, microMix] at h
    cases hs : s.stage <;> simp only [hs, Host.Outcome.next.injEq, reduceCtorEq] at h <;> simp [← h]
  | resp =>
    simp only [hp, microResp, Host.Outcome.next.injEq] at h
    split_ifs at h with h1 <;> subst h <;> simp_all

/-! ## The step -/

theorem step_eq (s : State) : step s = stepWith Config.E s := rfl

/-- The state once its next mover is taken off the list. -/
abbrev State.turnTaken (s : State) : State := { s with moves := s.moves.tail }

theorem stepWith_of_sequencersTurn (h : s.sequencersTurn) : stepWith E s = sequencerStep E s.turnTaken := by
  unfold stepWith State.turnTaken
  cases hm : s.moves with
  | nil =>
    have he : { s with moves := s.moves.tail } = s := by rw [hm, List.tail_nil, ← hm]
    simp only [he, ← hm]
  | cons m ms => cases m with
    | sequencer => rfl
    | env m => simp [State.sequencersTurn, hm] at h

theorem sequencerStep_of_placed (h : s.placed = true) : sequencerStep E s = microStep E (acceptCommand s) s := by
  simp [sequencerStep, h]

/-- What a step can do: a move of the environment, or one micro-step from a state of R124. -/
theorem stepWith_cases (h : stepWith E s = .next t) :
    (∃ m ms, s.moves = .env m :: ms ∧ t = State.envMove { s with moves := ms } m) ∨
    (s.sequencersTurn ∧ s.placed = true ∧ microStep E (acceptCommand s.turnTaken) s.turnTaken = .next t) := by
  by_cases hs : s.sequencersTurn
  · refine .inr ⟨hs, ?_⟩
    rw [stepWith_of_sequencersTurn hs, sequencerStep] at h
    have hp : s.turnTaken.placed = s.placed := rfl
    rw [hp] at h
    split_ifs at h with h1
    exact ⟨h1, h⟩
  · left
    unfold stepWith at h
    cases hm : s.moves with
    | nil => simp [State.sequencersTurn, hm] at hs
    | cons m ms => cases m with
      | sequencer => simp [State.sequencersTurn, hm] at hs
      | env m => simp only [hm, Host.Outcome.next.injEq] at h; exact ⟨m, ms, rfl, h.symm⟩

end Sys2Proof.Machine
end

