-- ==== Sys2Proof/Laws/Inv.lean ====
section
/-! SUPPORT. The invariant (R12, R27, R47, R124, R160): each micro-step, each meaning and each move of the environment keeps it. -/

namespace Sys2Proof.Machine

variable {E : Cipher} {s t : State}

/-- The invariant, with R124 and R160 written out. -/
theorem inv_iff (s : State) : s.Inv ↔
    ((s.key.length = s.ks.bytes ∧ s.v.length = 16 ∧ s.pd.length = s.ks.seed ∧ s.temp.length = s.ks.seed ∧
      s.blkr.length = 16) ∧
    ((match s.phase with
      | .idle => s.rem = 0 ∧ s.lenr = 0 ∧ s.pd = zeros s.ks.seed ∧ s.pdv = false ∧ s.temp = zeros s.ks.seed ∧
          s.blkr = zeros 16 ∧ s.rcode = codeOk
      | .fill => True
      | .inc | .req | .wait => s.rem ≠ 0
      | .emit => s.stage = .gen ∧ s.rem ≠ 0
      | .mix => s.stage ≠ .gen ∧ s.rem = 0
      | .resp => s.rem = 0 ∧ s.temp = zeros s.ks.seed ∧ s.blkr = zeros 16) ∧
     (s.phase ≠ .idle → s.phase ≠ .resp → (s.stage = .inst → s.inst = false ∧ s.pdv = true ∧ s.lenr = 0) ∧
        (s.stage ≠ .inst → s.inst = true)) ∧
     (s.rem.toNat ≤ s.fillTotal ∧ (s.rem = 0 ∨ (s.fillTotal - s.rem.toNat) % 16 = 0)) ∧
     (s.rcode = codeOk ∨ s.phase = .resp)) ∧
    s.inflight = (if s.phase = .wait then some s.request else none) ∧
    ((s.phase ≠ .emit → s.blkr = zeros 16) ∧ s.rcode.toNat ≤ 3)) ∧
    (s.rstI = .inactive ∨
      (s.phase = .idle ∧ s.stage = .inst ∧ s.inst = false ∧ s.key = zeros s.ks.bytes ∧ s.v = zeros 16)) := by
  have h1 : s.phaseOk = true ↔ (match s.phase with
      | .idle => s.rem = 0 ∧ s.lenr = 0 ∧ s.pd = zeros s.ks.seed ∧ s.pdv = false ∧ s.temp = zeros s.ks.seed ∧
          s.blkr = zeros 16 ∧ s.rcode = codeOk
      | .fill => True
      | .inc | .req | .wait => s.rem ≠ 0
      | .emit => s.stage = .gen ∧ s.rem ≠ 0
      | .mix => s.stage ≠ .gen ∧ s.rem = 0
      | .resp => s.rem = 0 ∧ s.temp = zeros s.ks.seed ∧ s.blkr = zeros 16) := by
    cases hp : s.phase <;> simp [State.phaseOk, State.workingClear, hp]
  have h2 : s.stageOk = true ↔ (s.phase ≠ .idle → s.phase ≠ .resp →
      (s.stage = .inst → s.inst = false ∧ s.pdv = true ∧ s.lenr = 0) ∧ (s.stage ≠ .inst → s.inst = true)) := by
    cases hp : s.phase <;> by_cases hs : s.stage = .inst <;> simp [State.stageOk, State.inCommand, hp, hs]
  simp only [State.Inv, State.widths, State.placed, State.inflightOk, State.latchesOk, Bool.and_eq_true, h1, h2,
    State.remOk, State.rcodeOk, State.resetOk, decide_eq_true_eq]
  exact ⟨fun ⟨w, ⟨⟨⟨⟨p, st⟩, r⟩, c⟩, rs⟩, f, l⟩ => ⟨⟨w, ⟨p, st, r, c⟩, f, l⟩, rs⟩,
    fun ⟨⟨w, ⟨p, st, r, c⟩, f, l⟩, rs⟩ => ⟨w, ⟨⟨⟨⟨p, st⟩, r⟩, c⟩, rs⟩, f, l⟩⟩

/-- Outside phase `IDLE` the block is out of reset (R160). -/
theorem inactive_of_inv (h : s.Inv) (hp : s.phase ≠ .idle) : s.rstI = .inactive :=
  ((inv_iff s).1 h).2.resolve_right fun h => hp h.1

theorem Inv.placed (h : s.Inv) : s.placed = true := h.2.1

/-- `REM` and the chunk of a block, in numbers. -/
theorem chunk_le (s : State) : s.chunk ≤ 16 ∧ s.chunk ≤ s.rem.toNat := by
  unfold State.chunk; omega

theorem remNext_toNat (s : State) : s.remNext.toNat = s.rem.toNat - s.chunk := by
  have hc := chunk_le s
  have hr := s.rem.isLt
  unfold State.remNext
  rw [BitVec.toNat_sub, BitVec.toNat_ofNat]
  omega

theorem rem_pos (h : s.rem ≠ 0) : 0 < s.rem.toNat := by
  rcases Nat.eq_zero_or_pos s.rem.toNat with h0 | h0
  · exact absurd (BitVec.eq_of_toNat_eq (by simpa using h0)) h
  · exact h0

theorem remNext_eq_zero : s.remNext = 0 ↔ s.rem.toNat ≤ 16 := by
  rw [← BitVec.toNat_inj, remNext_toNat]
  unfold State.chunk
  simp only [BitVec.ofNat_eq_ofNat, BitVec.toNat_ofNat, Nat.zero_mod]
  omega

/-- A fill that goes on keeps R124's arithmetic. -/
theorem remNext_fits (T : Nat) (hle : s.rem.toNat ≤ T) (hm : s.rem = 0 ∨ (T - s.rem.toNat) % 16 = 0) (h0 : s.rem ≠ 0) :
    s.remNext.toNat ≤ T ∧ (s.remNext = 0 ∨ (T - s.remNext.toNat) % 16 = 0) := by
  have hm' := hm.resolve_left h0
  rw [remNext_eq_zero, remNext_toNat]
  unfold State.chunk
  omega

/-! ## The environment and the meanings -/

theorem resetOf_inv (ks : KeySize) : (State.resetOf ks).Inv := by
  rw [inv_iff]; cases ks <;> simp [State.resetOf, State.fillTotal, zeros, KeySize.bytes]

/-- In the reset state `rst_i` may stand at any level (R160). -/
theorem resetOf_inv_at (ks : KeySize) (r : ResetInput) : ({ State.resetOf ks with rstI := r } : State).Inv := by
  rw [inv_iff]
  exact ⟨((inv_iff _).1 (resetOf_inv ks)).1, .inr ⟨rfl, rfl, rfl, rfl, rfl⟩⟩

/-- A block that has the invariant has it out of reset too. -/
theorem inactive_inv (h : s.Inv) : ({ s with rstI := .inactive } : State).Inv := by
  rw [inv_iff] at h ⊢
  exact ⟨h.1, .inl rfl⟩

/-- The other way round, from one level of a reset to another. -/
theorem released_inv (h : s.Inv) (hr : s.rstI = .asserted) : ({ s with rstI := .released } : State).Inv := by
  rw [inv_iff] at h ⊢
  exact ⟨h.1, .inr (h.2.resolve_left fun h => by simp [hr] at h)⟩

/-- The invariant does not look at the environment's side. -/
theorem inv_of_sameRegisters (h : s.Inv) (h1 : t.ks = s.ks) (h2 : t.key = s.key) (h3 : t.v = s.v) (h4 : t.inst = s.inst)
    (h5 : t.phase = s.phase) (h6 : t.stage = s.stage) (h7 : t.rem = s.rem) (h8 : t.lenr = s.lenr) (h9 : t.pd = s.pd)
    (h10 : t.pdv = s.pdv) (h11 : t.temp = s.temp) (h12 : t.blkr = s.blkr) (h13 : t.rcode = s.rcode)
    (h14 : t.inflight = s.inflight)
    (h15 : t.rstI = s.rstI) : t.Inv := by
  rw [inv_iff] at h ⊢
  simp only [State.fillTotal, State.request] at h ⊢
  rw [h1, h2, h3, h4, h5, h6, h7, h8, h9, h10, h11, h12, h13, h14, h15]
  exact h

theorem envMove_inv (m : EnvMove) (h : s.Inv) : (s.envMove m).Inv := by
  cases m with
  | pause => exact h
  | offer b => exact inv_of_sameRegisters h rfl rfl rfl rfl rfl rfl rfl rfl rfl rfl rfl rfl rfl rfl rfl
  | setReady c b =>
    cases c <;> exact inv_of_sameRegisters h rfl rfl rfl rfl rfl rfl rfl rfl rfl rfl rfl rfl rfl rfl rfl
  | readStatus => exact inv_of_sameRegisters h rfl rfl rfl rfl rfl rfl rfl rfl rfl rfl rfl rfl rfl rfl rfl
  | releaseReset =>
    by_cases hr : s.rstI = .asserted
    · exact inv_of_sameRegisters (released_inv h hr) rfl rfl rfl rfl rfl rfl rfl rfl rfl rfl rfl rfl rfl rfl (if_pos hr)
    · exact inv_of_sameRegisters h rfl rfl rfl rfl rfl rfl rfl rfl rfl rfl rfl rfl rfl rfl (if_neg hr)
  | reset held =>
    exact inv_of_sameRegisters (resetOf_inv_at s.ks (if held then .asserted else .released)) rfl rfl rfl rfl rfl rfl rfl rfl rfl rfl rfl rfl rfl rfl rfl

theorem errorCode_ne_ok (c : ErrorCause) : c.code ≠ codeOk := by cases c <;> decide

theorem errorCode_le (c : ErrorCause) : c.code.toNat ≤ 3 := by cases c <;> decide

theorem raiseError_inv (c : ErrorCause) (h : s.Inv) (hp : s.phase = .idle)
    (hr : s.rstI = .inactive) : (s.raiseError c).Inv := by
  rw [inv_iff] at h ⊢
  simp only [hp] at h
  have := errorCode_le c
  simp only [State.fillTotal] at h ⊢
  simp_all

theorem acceptCommand_inv (h : s.Inv) (hp : s.phase = .idle) (ha : acceptCommand s = .next t) : t.Inv := by
  have key : ∀ p rest, (s.taken p rest).Inv := fun p rest =>
    inv_of_sameRegisters h rfl rfl rfl rfl rfl rfl rfl rfl rfl rfl rfl rfl rfl rfl rfl
  rcases acceptCommand_next ha with
      rfl | ⟨-, rfl⟩ | ⟨p, rest, hr, -, ⟨c, rfl⟩ | ⟨ent, pers, -, he, hpl, rfl⟩ | ⟨len, -, hi, rfl⟩ | ⟨len, add, -, hi, hl, rfl⟩⟩
  · exact h
  · exact inactive_inv h
  · exact raiseError_inv c (key p rest) hp hr
  all_goals
    rw [inv_iff] at h ⊢
    simp only [hp] at h
    refine ⟨?_, .inl hr⟩
  · simp [State.fillTotal, seedOf, readOperand, h, he, hpl]
  · simp [State.fillTotal, noProvidedData, h, hi]
  · simp [State.fillTotal, readOperand, h, hi, hl]

/-- The scratch after step 2 of an Update has `SEED` bytes (R97). -/
theorem length_mixed (htemp : s.temp.length = s.ks.seed) (hpd : s.pd.length = s.ks.seed) :
    (if s.pdv then xorBytes s.temp s.pd else s.temp).length = s.ks.seed := by
  split <;> simp [htemp, hpd]

theorem mixSplit_widths (htemp : s.temp.length = s.ks.seed) (hpd : s.pd.length = s.ks.seed) :
    s.mixSplit.key.length = s.ks.bytes ∧ s.mixSplit.v.length = 16 := by
  have h := length_mixed htemp hpd
  have hs := seed_eq s.ks
  rw [mixSplit_key, mixSplit_v, length_memRead, length_memRead, h]
  omega

/-- Every micro-step keeps the invariant. -/
theorem microStep_inv (h : s.Inv) (hm : microStep E (acceptCommand s) s = .next t) : t.Inv := by
  rcases microStep_cases hm with ⟨hp, ha⟩ | ⟨hp, hr, rfl⟩ | ⟨hp, hr, hs, rfl⟩ | ⟨hp, hr, hs, rfl⟩ | ⟨hp, rfl⟩ | ⟨hp, -, rfl⟩ |
    ⟨-, -, rfl⟩ | ⟨-, -, rfl⟩ | ⟨q, hp, hq, -, hs, rfl⟩ | ⟨q, hp, hq, -, hs, rfl⟩ | ⟨hp, -, rfl⟩ | ⟨-, -, rfl⟩ |
    ⟨hp, hs, rfl⟩ | ⟨hp, hs, rfl⟩ | ⟨hp, hs, rfl⟩ | ⟨hp, -, rfl⟩ | ⟨-, -, rfl⟩
  · exact acceptCommand_inv h hp ha
  all_goals
    first
    | exact h
    | (have hlow := inactive_of_inv h (by simp [hp])
       rw [inv_iff] at h ⊢
       refine ⟨?_, .inl hlow⟩
       simp only [hp, State.fillTotal] at h
       replace h := h.1
       obtain ⟨⟨hk, hv, hpd, htemp, hblkr⟩, ⟨hph, hst, ⟨hrl, hrm⟩, hrc⟩, hfl, hb, hrc3⟩ := h
       simp only [ne_eq, reduceCtorEq, not_false_eq_true, forall_const, or_false, if_false] at hst hrc hfl hb)
  -- FILL to INC
  · exact ⟨⟨hk, hv, hpd, htemp, hblkr⟩, ⟨hr, by simpa using hst, ⟨hrl, hrm⟩, .inl hrc⟩,
      by simpa using hfl, by simpa using hb, hrc3⟩
  -- FILL, output complete
  · simp only [hs] at hst
    refine ⟨⟨hk, hv, hpd, htemp, hblkr⟩, ?_, by simpa [hp] using hfl, by simpa [hp] using hb, hrc3⟩
    simp [hp, hrc, hst, State.fillTotal]
  -- FILL to MIX
  · exact ⟨⟨hk, hv, hpd, htemp, hblkr⟩, ⟨⟨hs, hr⟩, by simpa using hst, ⟨hrl, hrm⟩, .inl hrc⟩,
      by simpa using hfl, by simpa using hb, hrc3⟩
  -- INC
  · exact ⟨⟨hk, by simpa using hv, hpd, htemp, hblkr⟩, ⟨hph, by simpa using hst, ⟨hrl, hrm⟩, .inl hrc⟩,
      by simpa using hfl, by simpa using hb, hrc3⟩
  -- REQ
  · exact ⟨⟨hk, hv, hpd, htemp, hblkr⟩, ⟨hph, by simpa using hst, ⟨hrl, hrm⟩, .inl hrc⟩,
      by simp [State.request], by simpa using hb, hrc3⟩
  -- WAIT, output fill
  · have hl := length_padBlock (E q.key q.block).toList s.chunk (by simp) (chunk_le s).1
    exact ⟨⟨hk, hv, hpd, htemp, hl⟩, ⟨⟨hs, hph⟩, by simpa using hst, ⟨hrl, hrm⟩, .inl hrc⟩, by simp, by simp, hrc3⟩
  -- WAIT, scratch fill
  · simp only [if_neg hs] at hrl hrm
    have hc := chunk_le s
    have hw := length_memWrite s.temp ((E q.key q.block).toList.take s.chunk) (s.ks.seed - s.rem.toNat)
      (by simp only [List.length_take, Vector.length_toList, htemp]; omega)
    have hf := remNext_fits s.ks.seed hrl hrm hph
    refine ⟨⟨hk, hv, hpd, hw.trans htemp, hblkr⟩, ⟨trivial, by simpa using hst, ?_, .inl hrc⟩,
      by simp, by simpa using hb, hrc3⟩
    simpa [State.fillTotal, hs] using hf
  -- EMIT
  · simp only [if_pos hph.1] at hrl hrm
    have hf := remNext_fits s.lenr.toNat hrl hrm hph.2
    refine ⟨⟨hk, hv, hpd, htemp, by simp⟩, ⟨trivial, by simpa using hst, ?_, .inl hrc⟩,
      by simpa using hfl, by simp, hrc3⟩
    simpa [State.fillTotal, hph.1] using hf
  -- MIX, S_INST
  · have hw := mixSplit_widths htemp hpd
    exact ⟨⟨hw.1, hw.2, hpd, by simp, hblkr⟩, ⟨⟨hph.2, rfl, hb⟩, by simp, ⟨hrl, hrm⟩, .inl hrc⟩,
      by simpa using hfl, by simpa using hb, hrc3⟩
  -- MIX, S_PRE
  · have hw := mixSplit_widths htemp hpd
    simp only [hs] at hst
    refine ⟨⟨hw.1, hw.2, hpd, by simp, hblkr⟩, ⟨trivial, ?_, ?_, .inl hrc⟩, by simpa using hfl, by simpa using hb, hrc3⟩
    · simpa using hst
    · simp [State.fillTotal]
  -- MIX, S_POST
  · have hw := mixSplit_widths htemp hpd
    exact ⟨⟨hw.1, hw.2, hpd, by simp, hblkr⟩, ⟨⟨hph.2, rfl, hb⟩, by simp, ⟨hrl, hrm⟩, .inl hrc⟩,
      by simpa using hfl, by simpa using hb, hrc3⟩
  -- RESP
  · refine ⟨⟨hk, hv, by simp, htemp, hblkr⟩, ⟨⟨hph.1, rfl, rfl, rfl, hph.2.1, hph.2.2, rfl⟩, by simp, ?_, .inl rfl⟩,
      by simpa using hfl, by simpa using hb, by simp⟩
    simp [hph.1]

/-- From a state of R124 a micro-step always answers a next state. -/
theorem microStep_answers_of_placed (h : s.placed = true) : ∃ t, microStep E (acceptCommand s) s = .next t := by
  unfold microStep
  cases hp : s.phase with
  | idle => exact acceptCommand_answers s
  | mix =>
    simp only [State.placed, State.phaseOk, hp, Bool.and_eq_true, decide_eq_true_eq] at h
    unfold microMix
    cases hst : s.stage with
    | gen => exact absurd hst h.1.1.1.1.1
    | inst => exact ⟨_, rfl⟩
    | pre => exact ⟨_, rfl⟩
    | post => exact ⟨_, rfl⟩
  | _ => exact ⟨_, rfl⟩

theorem microStep_answers (h : s.Inv) : ∃ t, microStep E (acceptCommand s) s = .next t :=
  microStep_answers_of_placed h.2.1

end Sys2Proof.Machine
end

