-- ==== Sys2Proof/Laws/PerInstr.lean ====
section
/-! SUPPORT. Per command: the packet of a well-formed command is framed as one packet, whatever follows it on CMD (R60,
R68). -/

namespace Sys2Proof.Laws.Framing

open Sys2Proof Sys2Proof.Machine

/-- A well-formed command's packet is exactly what is split off a stream that begins with it (R68). -/
def Statement (i : Instr) : Prop :=
  i.wellFormed = true → ∀ rest : Bytes, frame (encode i ++ rest) = some (encode i, rest)

/-- It is enough that the header's two length bytes add up to the operands. -/
theorem statement_of_length {i : Instr} (h : i.wellFormed = true → packetLength i.header = 8 + i.operands.length) :
    Statement i := by
  intro hw rest
  apply frame_of_wholePacket
  rw [wholePacket, ← packetLength_eq _ (by rw [encode_length]; omega), headerWord_encode, h hw, encode_length]

theorem instantiate (ent pers : Bytes) : Statement (.instantiate ent pers) := by
  refine statement_of_length fun hw => ?_
  simp only [Instr.wellFormed, operandFits, Bool.and_eq_true, decide_eq_true_eq] at hw
  obtain ⟨-, ha, hb, -, -⟩ := header_fields_of_build 0x01#8 ent.length pers.length 0#32
  simp only [Instr.header, packetLength, ha, hb, toNat_ofNat_byte hw.1, toNat_ofNat_byte hw.2, Instr.operands,
    List.length_append]
  omega

theorem generate (len : BitVec 32) : Statement (.generate len) := by
  refine statement_of_length fun _ => ?_
  obtain ⟨-, ha, hb, -, -⟩ := header_fields_of_build 0x02#8 0 0 len
  simp [Instr.header, packetLength, ha, hb, Instr.operands]

theorem generateAi (len : BitVec 32) (add : Bytes) : Statement (.generateAi len add) := by
  refine statement_of_length fun hw => ?_
  simp only [Instr.wellFormed, operandFits, decide_eq_true_eq] at hw
  obtain ⟨-, ha, hb, -, -⟩ := header_fields_of_build 0x03#8 add.length 0 len
  simp only [Instr.header, packetLength, ha, hb, toNat_ofNat_byte hw, Instr.operands]
  rfl

end Sys2Proof.Laws.Framing
end

