-- ==== Sys2Proof/Laws/Run.lean ====
section
/-! SUPPORT. Runs of the sequencer: one block of an Update, one block of output, a whole fill, a whole Update, against the
command level (R125). -/

namespace Sys2Proof.Machine

variable {E : Cipher} {s t : State}

/-! ## Runs -/

theorem runWith_trans {m : Nat} (n : Nat) (h : runWith E m s = .next t) : runWith E (m + n) s = runWith E n t := by
  induction m generalizing s with
  | zero => simp only [runWith, Host.Outcome.next.injEq] at h; rw [Nat.zero_add, h]
  | succ m ih =>
    rw [Nat.add_right_comm]
    simp only [runWith] at h ⊢
    cases hs : stepWith E s with
    | next u => rw [hs] at h; exact ih h
    | fault r => rw [hs] at h; cases h
    | refused r => rw [hs] at h; cases h

theorem stepWith_of_inv (hI : s.Inv) (hm : s.moves = []) : stepWith E s = microStep E (acceptCommand s) s := by
  unfold stepWith
  rw [hm]
  exact sequencerStep_of_placed hI.2.1

theorem inv_inflight_none (hI : s.Inv) (hp : s.phase ≠ .wait) : s.inflight = none := by
  have h := hI.2.2.1
  rwa [State.inflightOk, if_neg hp] at h

/-- One micro-step of a run; the next state has the invariant again. -/
theorem runWith_micro (n : Nat) (hI : s.Inv) (hm : s.moves = []) (h : microStep E (acceptCommand s) s = .next t) :
    t.Inv ∧ runWith E (n + 1) s = runWith E n t := by
  refine ⟨microStep_inv hI h, ?_⟩
  simp only [runWith, stepWith_of_inv hI hm, h]

/-! ## FILL by blocks (R87) -/

theorem fill_zero (key v : Bytes) : fill E key v 0 = ⟨[], v, []⟩ := by simp [fill, fillBlocks]

theorem fill_short (key v : Bytes) (n : Nat) (h0 : n ≠ 0) (h : n < 16) :
    fill E key v n = ⟨(E key (incr v)).toList.take n, incr v, [⟨key, incr v⟩]⟩ := by
  have h1 : n / 16 = 0 := by omega
  have h2 : n % 16 = n := by omega
  simp [fill, fillBlocks, nextBlock, h1, h2, h0]

theorem fill_long (key v : Bytes) (n : Nat) (h : 16 ≤ n) :
    fill E key v n =
      ⟨(E key (incr v)).toList ++ (fill E key (incr v) (n - 16)).bytes, (fill E key (incr v) (n - 16)).v,
        ⟨key, incr v⟩ :: (fill E key (incr v) (n - 16)).requests⟩ := by
  have h1 : n / 16 = (n - 16) / 16 + 1 := by omega
  have h2 : n % 16 = (n - 16) % 16 := by omega
  unfold fill
  rw [h1, h2]
  simp only [fillBlocks, nextBlock]
  split <;> simp

/-- The block of a fill that has `n` bytes to go, whichever it is: the next block first, then the rest. -/
theorem fill_step (key v : Bytes) (n : Nat) (h0 : n ≠ 0) :
    fill E key v n =
      ⟨(E key (incr v)).toList.take (min 16 n) ++ (fill E key (incr v) (n - min 16 n)).bytes,
        (fill E key (incr v) (n - min 16 n)).v,
        ⟨key, incr v⟩ :: (fill E key (incr v) (n - min 16 n)).requests⟩ := by
  rcases Nat.lt_or_ge n 16 with h | h
  · rw [fill_short key v n h0 h, Nat.min_eq_right h.le, Nat.sub_self, fill_zero]; simp
  · rw [fill_long key v n h, Nat.min_eq_left h]; simp

theorem fill_length (key v : Bytes) (n : Nat) : (fill E key v n).bytes.length = n := by
  induction n using Nat.strong_induction_on generalizing v with
  | _ n ih =>
    rcases Nat.eq_zero_or_pos n with rfl | h
    · simp [fill_zero]
    · rw [fill_step key v n (by omega)]
      simp only [List.length_append, List.length_take, Vector.length_toList, ih (n - min 16 n) (by omega)]
      omega

/-! ## One block -/

theorem microStep_fill (hp : s.phase = .fill) (hr : s.rem ≠ 0) (a : Host.Outcome State Fault Refusal) :
    microStep E a s = .next { s with phase := .inc } := by
  unfold microStep microFill
  rw [hp]
  simp only [if_pos hr]

/-- The state after one block of scratch: `FILL`, `INC`, `REQ`, `WAIT` (R117 to R120). -/
abbrev State.afterScratchBlock (s : State) (E : Cipher) : State :=
  { s with
    v := incr s.v
    temp := memWrite s.temp (s.ks.seed - s.rem.toNat) ((E s.key (incr s.v)).toList.take s.chunk)
    rem := s.remNext
    trace := s.trace ++ cipherEvents E ⟨s.key, incr s.v⟩ }

theorem run_scratchBlock (n : Nat) (hI : s.Inv) (hc : s.cooperative) (hp : s.phase = .fill) (hs : s.stage ≠ .gen)
    (hr : s.rem ≠ 0) :
    (s.afterScratchBlock E).Inv ∧ runWith E (n + 4) s = runWith E n (s.afterScratchBlock E) := by
  obtain ⟨-, -, hq, ha, hm⟩ := hc
  have hfl := inv_inflight_none hI (by simp [hp])
  obtain ⟨i1, r1⟩ := runWith_micro (E := E) (n + 3) hI hm (microStep_fill hp hr _)
  obtain ⟨i2, r2⟩ := runWith_micro (E := E) (n + 2) i1 hm
    (t := { s with v := incr s.v, phase := .req }) (by simp [microStep, microInc])
  obtain ⟨i3, r3⟩ := runWith_micro (E := E) (n + 1) i2 hm
    (t := State.note { s with v := incr s.v, phase := .wait, inflight := some ⟨s.key, incr s.v⟩ } (.creq ⟨s.key, incr s.v⟩))
    (by simp [microStep, microReq, hq, State.request])
  obtain ⟨i4, r4⟩ := runWith_micro (E := E) n i3 hm (t := s.afterScratchBlock E) (by
    simp [microStep, microWait, ha, State.takeAnswer, hs, State.note, State.chunk, State.remNext, cipherEvents, hp, hfl])
  exact ⟨i4, by rw [r1, r2, r3, r4]⟩

/-- The state after one block of output: `FILL`, `INC`, `REQ`, `WAIT`, `EMIT` (R117 to R121). -/
abbrev State.afterOutputBlock (s : State) (E : Cipher) : State :=
  { s with
    v := incr s.v
    rem := s.remNext
    trace := s.trace ++ (cipherEvents E ⟨s.key, incr s.v⟩ ++
      [.out { data := padBlock (E s.key (incr s.v)).toList s.chunk, nb := BitVec.ofNat 5 s.chunk,
              last := decide (s.rem.toNat ≤ 16) }]) }

theorem run_outputBlock (n : Nat) (hI : s.Inv) (hc : s.cooperative) (hp : s.phase = .fill) (hs : s.stage = .gen)
    (hr : s.rem ≠ 0) :
    (s.afterOutputBlock E).Inv ∧ runWith E (n + 5) s = runWith E n (s.afterOutputBlock E) := by
  obtain ⟨ho, -, hq, ha, hm⟩ := hc
  have hfl := inv_inflight_none hI (by simp [hp])
  have hb : s.blkr = zeros 16 := hI.2.2.2.1 (by simp [hp])
  obtain ⟨i1, r1⟩ := runWith_micro (E := E) (n + 4) hI hm (microStep_fill hp hr _)
  obtain ⟨i2, r2⟩ := runWith_micro (E := E) (n + 3) i1 hm
    (t := { s with v := incr s.v, phase := .req }) (by simp [microStep, microInc])
  obtain ⟨i3, r3⟩ := runWith_micro (E := E) (n + 2) i2 hm
    (t := State.note { s with v := incr s.v, phase := .wait, inflight := some ⟨s.key, incr s.v⟩ } (.creq ⟨s.key, incr s.v⟩))
    (by simp [microStep, microReq, hq, State.request])
  obtain ⟨i4, r4⟩ := runWith_micro (E := E) (n + 1) i3 hm
    (t := { s with v := incr s.v, phase := .emit, blkr := padBlock (E s.key (incr s.v)).toList s.chunk,
                   trace := s.trace ++ cipherEvents E ⟨s.key, incr s.v⟩ })
    (by simp [microStep, microWait, ha, State.takeAnswer, hs, State.note, State.chunk, cipherEvents, hfl])
  obtain ⟨i5, r5⟩ := runWith_micro (E := E) n i4 hm (t := s.afterOutputBlock E)
    (by simp [microStep, microEmit, ho, State.note, State.remNext, State.chunk, State.beat, hp, hb])
  exact ⟨i5, by rw [r1, r2, r3, r4, r5]⟩

/-! ## A whole fill (R87, R117) -/

theorem div16_succ (n : Nat) (h : n ≠ 0) : (n + 15) / 16 = (n - min 16 n + 15) / 16 + 1 := by omega

theorem memWrite_prefix (pre temp b : Bytes) (off : Nat) (hp : pre.length = off) :
    memWrite (pre ++ temp.drop off) off b = pre ++ b ++ (temp.drop off).drop b.length := by
  subst hp
  simp [memWrite]

/-- The scratch fill of an Update: after four micro-steps a block, the scratch holds FILL's bytes from the offset on, and
the transfers are those of FILL's requests (R96, R120). -/
theorem run_scratchFill (k : Nat) (n : Nat) (hI : s.Inv) (hc : s.cooperative) (hp : s.phase = .fill)
    (hs : s.stage ≠ .gen) (hk : (s.rem.toNat + 15) / 16 = k) :
    let f := fill E s.key s.v s.rem.toNat
    let u : State := { s with
      v := f.v, rem := 0, temp := s.temp.take (s.ks.seed - s.rem.toNat) ++ f.bytes
      trace := s.trace ++ f.requests.flatMap (cipherEvents E) }
    u.Inv ∧ runWith E (n + 4 * k) s = runWith E n u := by
  induction k generalizing s with
  | zero =>
    have h0 : s.rem.toNat = 0 := by omega
    have hr : s.rem = 0 := BitVec.eq_of_toNat_eq (by simpa using h0)
    have ht : s.temp.length = s.ks.seed := hI.1.2.2.2.1
    have hsame : ({ s with
      v := (fill E s.key s.v s.rem.toNat).v, rem := 0
      temp := s.temp.take (s.ks.seed - s.rem.toNat) ++ (fill E s.key s.v s.rem.toNat).bytes
      trace := s.trace ++ (fill E s.key s.v s.rem.toNat).requests.flatMap (cipherEvents E) } : State) = s := by
      rw [h0, fill_zero]; simp [← ht, ← hr]
    simp only [hsame]
    exact ⟨hI, rfl⟩
  | succ k ih =>
    have h0 : s.rem.toNat ≠ 0 := by omega
    have hr : s.rem ≠ 0 := fun h => h0 (by simp [h])
    have ht : s.temp.length = s.ks.seed := hI.1.2.2.2.1
    have hle : s.rem.toNat ≤ s.ks.seed := by
      have := ((inv_iff s).mp hI).1
      simpa [State.fillTotal, hs] using this.2.1.2.2.1.1
    obtain ⟨i1, r1⟩ := run_scratchBlock (E := E) (n + 4 * k) hI hc hp hs hr
    have hrem : (s.afterScratchBlock E).rem.toNat = s.rem.toNat - min 16 s.rem.toNat := remNext_toNat s
    obtain ⟨i2, r2⟩ := ih i1 hc hp hs (by rw [hrem]; omega)
    rw [show n + 4 * (k + 1) = n + 4 * k + 4 by ring, r1, r2]
    have hb : ((E s.key (incr s.v)).toList.take s.chunk).length = min 16 s.rem.toNat := by
      simp [State.chunk]
    have htake : (s.afterScratchBlock E).temp.take (s.ks.seed - (s.rem.toNat - min 16 s.rem.toNat)) =
        s.temp.take (s.ks.seed - s.rem.toNat) ++ (E s.key (incr s.v)).toList.take s.chunk := by
      have : (s.temp.take (s.ks.seed - s.rem.toNat) ++ (E s.key (incr s.v)).toList.take s.chunk).length =
          s.ks.seed - (s.rem.toNat - min 16 s.rem.toNat) := by
        rw [List.length_append, hb, List.length_take, ht]; omega
      exact List.take_left' this
    have hfinal : ({ (s.afterScratchBlock E) with
        v := (fill E s.key (incr s.v) (s.rem.toNat - min 16 s.rem.toNat)).v, rem := 0
        temp := (s.afterScratchBlock E).temp.take (s.ks.seed - (s.rem.toNat - min 16 s.rem.toNat)) ++
          (fill E s.key (incr s.v) (s.rem.toNat - min 16 s.rem.toNat)).bytes
        trace := (s.afterScratchBlock E).trace ++
          (fill E s.key (incr s.v) (s.rem.toNat - min 16 s.rem.toNat)).requests.flatMap (cipherEvents E) } : State) =
      { s with
        v := (fill E s.key s.v s.rem.toNat).v, rem := 0
        temp := s.temp.take (s.ks.seed - s.rem.toNat) ++ (fill E s.key s.v s.rem.toNat).bytes
        trace := s.trace ++ (fill E s.key s.v s.rem.toNat).requests.flatMap (cipherEvents E) } := by
      rw [htake, fill_step s.key s.v s.rem.toNat h0]
      simp [State.chunk]
    simp only [hrem] at i2 ⊢
    exact ⟨by rw [← hfinal]; exact i2, by rw [← hfinal]⟩

/-! ## Beats (R36) -/

theorem beatAt_succ (dest : Bytes) (k : Nat) : beatAt dest (k + 1) = beatAt (dest.drop 16) k := by
  have h1 : dest.length - 16 * (k + 1) = dest.length - 16 - 16 * k := by omega
  have h2 : dest.length ≤ 16 * (k + 1) + 16 ↔ dest.length - 16 ≤ 16 * k + 16 := by omega
  simp only [beatAt, memRead, List.length_drop, List.drop_drop, h1, h2]
  rw [show 16 * (k + 1) = 16 + 16 * k by ring]

theorem beatsOf_nil : beatsOf [] = [] := rfl

theorem beatsOf_cons (dest : Bytes) (h : dest ≠ []) : beatsOf dest = beatAt dest 0 :: beatsOf (dest.drop 16) := by
  have hl : 0 < dest.length := List.length_pos_iff.mpr h
  have h1 : (dest.length + 15) / 16 = ((dest.drop 16).length + 15) / 16 + 1 := by rw [List.length_drop]; omega
  unfold beatsOf
  rw [h1, List.range_succ_eq_map, List.map_cons, List.map_map]
  congr 1
  exact List.map_congr_left fun k _ => beatAt_succ dest k

/-- The first beat of an output whose first bytes come from the block `b`. -/
theorem beatAt_zero_of_block (b rest : Bytes) (n : Nat) (hb : b.length = 16) (hr : rest.length = n - min 16 n) :
    beatAt (b.take (min 16 n) ++ rest) 0 =
      { data := padBlock b (min 16 n), nb := BitVec.ofNat 5 (min 16 n), last := decide (n ≤ 16) } := by
  have hl : (b.take (min 16 n) ++ rest).length = n := by
    rw [List.length_append, List.length_take, hb, hr]; omega
  have hm : min 16 (n - 16 * 0) = min 16 n := by simp
  unfold beatAt
  rw [hl]
  simp only [hm, Nat.mul_zero, Nat.zero_add, memRead, List.drop_zero, padBlock]
  congr 2
  rw [List.take_take, Nat.min_eq_left (Nat.min_le_left 16 n), List.take_append_of_le_length (by simp; omega),
    List.take_take, Nat.min_self]

/-- The transfers of an output fill (R51): each request, its answer, its beat. -/
def fillTransfers (E : Cipher) (f : Keystream) : List Event :=
  (List.zipWith (fun r b => cipherEvents E r ++ [.out b]) f.requests (beatsOf f.bytes)).flatten

theorem fillTransfers_step (key v : Bytes) (n : Nat) (h0 : n ≠ 0) :
    fillTransfers E (fill E key v n) =
      cipherEvents E ⟨key, incr v⟩ ++
        [.out { data := padBlock (E key (incr v)).toList (min 16 n), nb := BitVec.ofNat 5 (min 16 n),
                last := decide (n ≤ 16) }] ++
        fillTransfers E (fill E key (incr v) (n - min 16 n)) := by
  have hb := beatAt_zero_of_block (E key (incr v)).toList (fill E key (incr v) (n - min 16 n)).bytes n (by simp)
    (fill_length key (incr v) _)
  have hd : ((E key (incr v)).toList.take (min 16 n) ++ (fill E key (incr v) (n - min 16 n)).bytes).drop 16 =
      (fill E key (incr v) (n - min 16 n)).bytes := by
    rcases Nat.lt_or_ge n 16 with h | h
    · have : n - min 16 n = 0 := by omega
      rw [this, fill_zero, List.append_nil]
      exact List.drop_of_length_le (by simp)
    · rw [Nat.min_eq_left h]
      exact List.drop_left' (by simp)
  have hne : (E key (incr v)).toList.take (min 16 n) ++ (fill E key (incr v) (n - min 16 n)).bytes ≠ [] := by
    intro h
    have := congrArg List.length h
    simp only [List.length_append, List.length_take, Vector.length_toList, List.length_nil] at this
    omega
  unfold fillTransfers
  rw [fill_step key v n h0]
  simp only
  rw [beatsOf_cons _ hne, hb, hd]
  simp

/-- The output fill: after five micro-steps a block, FILL's bytes have been delivered in beats (R36, R51, R120, R121). -/
theorem run_outputFill (k : Nat) (n : Nat) (hI : s.Inv) (hc : s.cooperative) (hp : s.phase = .fill)
    (hs : s.stage = .gen) (hk : (s.rem.toNat + 15) / 16 = k) :
    let f := fill E s.key s.v s.rem.toNat
    let u : State := { s with v := f.v, rem := 0, trace := s.trace ++ fillTransfers E f }
    u.Inv ∧ runWith E (n + 5 * k) s = runWith E n u := by
  induction k generalizing s with
  | zero =>
    have h0 : s.rem.toNat = 0 := by omega
    have hr : s.rem = 0 := BitVec.eq_of_toNat_eq (by simpa using h0)
    have hsame : ({ s with
      v := (fill E s.key s.v s.rem.toNat).v, rem := 0
      trace := s.trace ++ fillTransfers E (fill E s.key s.v s.rem.toNat) } : State) = s := by
      rw [h0, fill_zero]; simp [← hr, fillTransfers]
    simp only [hsame]
    exact ⟨hI, rfl⟩
  | succ k ih =>
    have h0 : s.rem.toNat ≠ 0 := by omega
    have hr : s.rem ≠ 0 := fun h => h0 (by simp [h])
    obtain ⟨i1, r1⟩ := run_outputBlock (E := E) (n + 5 * k) hI hc hp hs hr
    have hrem : (s.afterOutputBlock E).rem.toNat = s.rem.toNat - min 16 s.rem.toNat := remNext_toNat s
    obtain ⟨i2, r2⟩ := ih i1 hc hp hs (by rw [hrem]; omega)
    rw [show n + 5 * (k + 1) = n + 5 * k + 5 by ring, r1, r2]
    have hfinal : ({ (s.afterOutputBlock E) with
        v := (fill E s.key (incr s.v) (s.rem.toNat - min 16 s.rem.toNat)).v, rem := 0
        trace := (s.afterOutputBlock E).trace ++
          fillTransfers E (fill E s.key (incr s.v) (s.rem.toNat - min 16 s.rem.toNat)) } : State) =
      { s with
        v := (fill E s.key s.v s.rem.toNat).v, rem := 0
        trace := s.trace ++ fillTransfers E (fill E s.key s.v s.rem.toNat) } := by
      rw [fillTransfers_step s.key s.v s.rem.toNat h0, fill_step s.key s.v s.rem.toNat h0]
      simp [State.chunk]
    simp only [hrem] at i2 ⊢
    exact ⟨by rw [← hfinal]; exact i2, by rw [← hfinal]⟩

/-! ## A whole Update (R95, R122) -/

/-- The provided data of the command as UPDATE's operand (R19, R95). -/
def State.provided (s : State) : Option Bytes := if s.pdv then some s.pd else none

theorem microStep_fill_mix (hp : s.phase = .fill) (hr : s.rem = 0) (hs : s.stage ≠ .gen)
    (a : Host.Outcome State Fault Refusal) : microStep E a s = .next { s with phase := .mix } := by
  unfold microStep microFill
  rw [hp]
  simp only [hr, ne_eq, not_true_eq_false, if_false, if_neg hs]

theorem microStep_fill_post (hp : s.phase = .fill) (hr : s.rem = 0) (hs : s.stage = .gen)
    (a : Host.Outcome State Fault Refusal) :
    microStep E a s = .next { s with stage := .post, rem := seedWord s.ks } := by
  unfold microStep microFill
  rw [hp]
  simp only [hr, ne_eq, not_true_eq_false, if_false, if_pos hs]

theorem nu_eq (ks : KeySize) : (ks.seed + 15) / 16 = ks.nu := rfl

/-- An Update up to the `MIX` micro-step: `4*NU + 1` micro-steps, and `MIX` then yields UPDATE's `KEY` and `V`. -/
theorem run_toMix (n : Nat) (hI : s.Inv) (hc : s.cooperative) (hp : s.phase = .fill)
    (hs : s.stage ≠ .gen) (hr : s.rem = seedWord s.ks) :
    let r := update s.ks E s.key s.v s.provided
    ∃ m : State, m.Inv ∧ runWith E (n + (4 * s.ks.nu + 1)) s = runWith E n m ∧ m.phase = .mix ∧
      m.mixSplit = { s with
        phase := .mix, key := r.key, v := r.v, rem := 0, temp := zeros s.ks.seed,
        trace := s.trace ++ r.requests.flatMap (cipherEvents E) } := by
  have hrn : s.rem.toNat = s.ks.seed := by rw [hr, seedWord_toNat]
  have hk : (s.rem.toNat + 15) / 16 = s.ks.nu := by rw [hrn, nu_eq]
  obtain ⟨i1, r1⟩ := run_scratchFill (E := E) s.ks.nu (n + 1) hI hc hp hs hk
  simp only [hrn, Nat.sub_self, List.take_zero, List.nil_append] at i1 r1
  obtain ⟨i2, r2⟩ := runWith_micro (E := E) n i1 hc.2.2.2.2 (by
    apply microStep_fill_mix
    · exact hp
    · rfl
    · exact hs)
  refine ⟨_, i2, by rw [show n + (4 * s.ks.nu + 1) = n + 1 + 4 * s.ks.nu by ring, r1, r2], rfl, ?_⟩
  cases hv : s.pdv <;> simp [State.mixSplit, update, State.provided, hv]

theorem microStep_mix (hp : s.phase = .mix) (a : Host.Outcome State Fault Refusal) : microStep E a s = microMix s := by
  simp [microStep, hp]

theorem microStep_resp (hp : s.phase = .resp) (hr : s.rspReady = true) (a : Host.Outcome State Fault Refusal) :
    microStep E a s = .next s.deliverResponse := by
  simp [microStep, hp, microResp, hr]

/-- The state after the split of an Update (R122): UPDATE's `KEY` and `V`, the scratch clear, its transfers noted. -/
abbrev State.rekeyed (s : State) (E : Cipher) : State :=
  { s with
    key := (update s.ks E s.key s.v s.provided).key, v := (update s.ks E s.key s.v s.provided).v, rem := 0,
    temp := zeros s.ks.seed,
    trace := s.trace ++ (update s.ks E s.key s.v s.provided).requests.flatMap (cipherEvents E) }

/-- `MIX` with the stage known (R122), in terms of the split. -/
theorem microMix_of_stage (s : State) (h : s.stage ≠ .gen) :
    microMix s = .next (match s.stage with
      | .inst => { s.mixSplit with inst := true, phase := .resp }
      | .pre => { s.mixSplit with stage := .gen, rem := s.mixSplit.lenr, phase := .fill }
      | _ => { s.mixSplit with phase := .resp }) := by
  unfold microMix
  cases hs : s.stage <;> simp_all

/-- The Update of stage `S_PRE`: `4*NU + 2` micro-steps, then the output fill is started with the new state. -/
theorem run_preUpdate (n : Nat) (hI : s.Inv) (hc : s.cooperative) (hp : s.phase = .fill)
    (hs : s.stage = .pre) (hr : s.rem = seedWord s.ks) :
    ({ s.rekeyed E with stage := .gen, rem := s.lenr } : State).Inv ∧
      runWith E (n + (4 * s.ks.nu + 2)) s = runWith E n { s.rekeyed E with stage := .gen, rem := s.lenr } := by
  obtain ⟨m, im, rm, pm, hm⟩ := run_toMix (E := E) (n + 1) hI hc hp (by simp [hs]) hr
  have hst : m.stage = .pre := by
    have := congrArg State.stage hm; simpa [hs] using this
  have hmv : m.moves = [] := by
    have := congrArg State.moves hm; simpa [hc.2.2.2.2] using this
  obtain ⟨i2, r2⟩ := runWith_micro (E := E) n im hmv
    ((microStep_mix pm _).trans (microMix_of_stage m (by simp [hst])))
  simp only [hst, hm, ← hp] at i2 r2
  exact ⟨i2, by rw [show n + (4 * s.ks.nu + 2) = n + 1 + (4 * s.ks.nu + 1) by ring, rm, r2]⟩

/-- The Update that ends a command (stages `S_INST` and `S_POST`): `4*NU + 3` micro-steps to the response. -/
theorem run_lastUpdate (n : Nat) (hI : s.Inv) (hc : s.cooperative) (hp : s.phase = .fill)
    (hs : s.stage = .inst ∨ s.stage = .post) (hr : s.rem = seedWord s.ks) :
    runWith E (n + (4 * s.ks.nu + 3)) s = runWith E n
      (State.deliverResponse { s.rekeyed E with inst := if s.stage = .inst then true else s.inst, phase := .resp }) := by
  have hng : s.stage ≠ .gen := by rcases hs with h | h <;> simp [h]
  obtain ⟨m, im, rm, pm, hm⟩ := run_toMix (E := E) (n + 2) hI hc hp hng hr
  have hst : m.stage = s.stage := by simpa using congrArg State.stage hm
  have hmv : m.moves = [] := (congrArg State.moves hm).trans hc.2.2.2.2
  have hrr : m.rspReady = true := (congrArg State.rspReady hm).trans hc.2.1
  obtain ⟨i2, r2⟩ := runWith_micro (E := E) (n + 1) im hmv
    ((microStep_mix pm _).trans (microMix_of_stage m (by rwa [hst])))
  rw [show n + (4 * s.ks.nu + 3) = n + 2 + (4 * s.ks.nu + 1) by ring, rm, r2]
  rcases hs with h | h
  · simp only [hst, h] at i2 ⊢
    rw [(runWith_micro (E := E) n i2 hmv (by
      apply microStep_resp
      · rfl
      · exact hrr)).2, hm]
    simp [h]
  · simp only [hst, h] at i2 ⊢
    rw [(runWith_micro (E := E) n i2 hmv (by
      apply microStep_resp
      · rfl
      · exact hrr)).2, hm]
    simp [h]

/-- The output fill and the Update after it: the rest of a generate command from the start of its output. -/
theorem run_outputAndRekey (n : Nat) (hI : s.Inv) (hc : s.cooperative) (hp : s.phase = .fill) (hs : s.stage = .gen) :
    runWith E (n + (5 * ((s.rem.toNat + 15) / 16) + 4 * s.ks.nu + 4)) s = runWith E n
      (State.deliverResponse
        { State.rekeyed
            { s with v := (fill E s.key s.v s.rem.toNat).v,
                     trace := s.trace ++ fillTransfers E (fill E s.key s.v s.rem.toNat), stage := .post } E with
          phase := .resp }) := by
  obtain ⟨i1, r1⟩ := run_outputFill (E := E) _ (n + (4 * s.ks.nu + 3) + 1) hI hc hp hs rfl
  rw [show n + (5 * ((s.rem.toNat + 15) / 16) + 4 * s.ks.nu + 4) =
    n + (4 * s.ks.nu + 3) + 1 + 5 * ((s.rem.toNat + 15) / 16) by ring, r1]
  obtain ⟨i2, r2⟩ := runWith_micro (E := E) (n + (4 * s.ks.nu + 3)) i1 hc.2.2.2.2 (by
    apply microStep_fill_post
    · exact hp
    · rfl
    · exact hs)
  rw [r2]
  exact run_lastUpdate (E := E) n i2 hc hp (.inr rfl) rfl

end Sys2Proof.Machine
end

