-- ==== Sys2Proof/Tests/Slice0.lean ====
section
/-! SUPPORT. Tests: the smoke tests of WellFormed, decoding of packets written out from the spec, the vectors of
95_test_vectors.md that use the toy cipher, single micro-steps of the trace of R127, and, for each statement of
Obligations.lean that has hypotheses, a state and operands that meet them. -/

namespace Sys2Proof.Tests

open Sys2Proof Sys2Proof.Machine

/-! ## Helpers -/

/-- Eight bytes of a number, first byte most significant, for writing constants. -/
def hx8 (k : Nat) : Bytes := beBytes 8 k

/-- Sixteen bytes of a number. -/
def hx16 (k : Nat) : Bytes := beBytes 16 k

/-- `n` bytes counting up from `first` (`0102..20` is `up 1 32`). -/
def up (first n : Nat) : Bytes := (List.range n).map fun i => BitVec.ofNat 8 (first + i)

/-- The toy cipher of 95_test_vectors.md section 2. -/
def toy : Cipher := fun k b =>
  ⟨((List.range 16).map fun i =>
      b.getD i 0 + k.getD i 0 + 2 * k.getD (i + 16) 0 + BitVec.ofNat 8 (i + 1)).toArray, by simp⟩

/-- The generator state of 95_test_vectors.md section 5.2: what INSTANTIATE with zero operands leaves (V-I4). -/
def liveGen : Generator :=
  ⟨hx16 0x0102030405060708090a0b0c0d0e0f11, hx16 0x0102030405060708090a0b0c0d0e0f12, true⟩

/-- A block just out of reset. -/
def running : State := { State.reset with rstI := .inactive }

/-- An idle block with that generator state. -/
def live : State := { running with key := liveGen.key, v := liveGen.v, inst := true }

/-- A block in the output fill of `GENERATE len=20`, in phase `ph` with `r` bytes to go (R127). -/
def inGen (ph : Phase) (r : BitVec 32) : State :=
  { live with
    phase := ph, stage := .gen, rem := r, lenr := 20,
    inflight := if ph = .wait then some ⟨liveGen.key, liveGen.v⟩ else none }

/-- A block in an Update of `GENERATE_AI len=20` (or of INSTANTIATE, for stage `.inst`), with `r` bytes to go. -/
def inUpd (ph : Phase) (st : Stage) (r : BitVec 32) : State :=
  { live with
    inst := decide (st ≠ .inst), phase := ph, stage := st, rem := r, lenr := if st = .inst then 0 else 20,
    pd := up 1 32, pdv := true,
    inflight := if ph = .wait then some ⟨liveGen.key, liveGen.v⟩ else none }

/-- A block about to deliver code 2. -/
def inResp : State := { live with phase := .resp, rcode := 2 }

/-- A state with bytes on CMD. -/
def offering (s : State) (bs : Bytes) : State := { s with cmd := bs }

/-- The state in a next outcome. -/
def nextOf : Host.Outcome State Fault Refusal → Option State
  | .next s => some s
  | .fault _ => none
  | .refused _ => none

/-- `nextOf` says no less than the equation between outcomes (which `decide` cannot compare). -/
theorem nextOf_eq_some {o : Host.Outcome State Fault Refusal} {s : State} : nextOf o = some s ↔ o = .next s := by
  cases o <;> simp [nextOf]

/-- The state has the invariant, is in phase `ph` and out of reset, and the sequencer makes every move. -/
abbrev inPhase (s : State) (ph : Phase) : Prop := s.Inv ∧ s.phase = ph ∧ s.rstI = .inactive ∧ s.moves = []

/-- Whether an outcome is the fault of a stuck combination. -/
def isStuck : Host.Outcome State Fault Refusal → Bool
  | .fault .noRuleApplies => true
  | .next _ => false
  | .refused _ => false

/-! ## WellFormed: each check refuses an ill-formed command -/

/-- An entropy operand of 256 bytes fits no header (R61). -/
theorem test_wf_entropy_too_long :
    (Instr.instantiate (zeros 256) []).wellFormed = false := by
  simp only [Instr.wellFormed, operandFits, zeros, List.length_replicate, List.length_nil]; decide

/-- A personalization of 256 bytes fits no header (R61). -/
theorem test_wf_personalization_too_long :
    (Instr.instantiate [] (zeros 256)).wellFormed = false := by
  simp only [Instr.wellFormed, operandFits, zeros, List.length_replicate, List.length_nil]; decide

/-- An additional input of 256 bytes fits no header (R61). -/
theorem test_wf_additional_input_too_long :
    (Instr.generateAi 1 (zeros 256)).wellFormed = false := by
  simp only [Instr.wellFormed, operandFits, zeros, List.length_replicate]; decide

/-! ## Decoding: packets written out from R61, R62 and 95_test_vectors.md section 5.4 -/

/-- V-A9, V-D14: GENERATE_AI len=20, add=0102..20. -/
theorem test_decode_generateAi :
    decode [0x03, 0x20, 0x00, 0x00, 0x00, 0x00, 0x00, 0x14,
      0x01, 0x02, 0x03, 0x04, 0x05, 0x06, 0x07, 0x08, 0x09, 0x0a, 0x0b, 0x0c, 0x0d, 0x0e, 0x0f, 0x10,
      0x11, 0x12, 0x13, 0x14, 0x15, 0x16, 0x17, 0x18, 0x19, 0x1a, 0x1b, 0x1c, 0x1d, 0x1e, 0x1f, 0x20] =
      .ok (.generateAi 20 (up 1 32)) := by decide

/-- V-A10: GENERATE_AI len=1 with an empty additional input is a legal packet. -/
theorem test_decode_generateAi_empty :
    decode [0x03, 0x00, 0x00, 0x00, 0x00, 0x00, 0x00, 0x01] = .ok (.generateAi 1 []) := by decide

/-- V-D4: INSTANTIATE, 31 bytes of entropy and 32 of personalization, is a legal packet of 71 bytes. -/
theorem test_decode_instantiate :
    decode ([0x01, 0x1f, 0x20, 0x00, 0x00, 0x00, 0x00, 0x00] ++ up 0 31 ++ up 0x80 32) =
      .ok (.instantiate (up 0 31) (up 0x80 32)) := by decide

/-- V-D5: INSTANTIATE with no operand bytes. -/
theorem test_decode_instantiate_empty :
    decode [0x01, 0x00, 0x00, 0x00, 0x00, 0x00, 0x00, 0x00] = .ok (.instantiate [] []) := by decide

/-- V-A7: LEN is big-endian: 65537 is 00010001. -/
theorem test_decode_generate :
    decode [0x02, 0x00, 0x00, 0x00, 0x00, 0x01, 0x00, 0x01] = .ok (.generate 65537) := by decide

/-- V-D6, V-D7: INSTANTIATE with LEN or RSV not zero is illegal. -/
theorem test_decode_illegal_instantiate :
    decode ([0x01, 0x20, 0x20, 0x00, 0x00, 0x00, 0x00, 0x01] ++ zeros 64) = .error .illegalHeader ∧
    decode ([0x01, 0x20, 0x20, 0x01, 0x00, 0x00, 0x00, 0x00] ++ zeros 64) = .error .illegalHeader := by decide

/-- V-D11, V-D12, V-D13: GENERATE with ALEN, BLEN or RSV not zero is illegal. -/
theorem test_decode_illegal_generate :
    decode [0x02, 0x01, 0x00, 0x00, 0x00, 0x00, 0x00, 0x04, 0xaa] = .error .illegalHeader ∧
    decode [0x02, 0x00, 0x01, 0x00, 0x00, 0x00, 0x00, 0x04, 0xaa] = .error .illegalHeader ∧
    decode [0x02, 0x00, 0x00, 0x80, 0x00, 0x00, 0x00, 0x04] = .error .illegalHeader := by decide

/-- V-D17, V-D18: GENERATE_AI with BLEN or RSV not zero is illegal. -/
theorem test_decode_illegal_generateAi :
    decode ([0x03, 0x20, 0x20, 0x00, 0x00, 0x00, 0x00, 0x14] ++ zeros 64) = .error .illegalHeader ∧
    decode ([0x03, 0x20, 0x00, 0x01, 0x00, 0x00, 0x00, 0x14] ++ zeros 32) = .error .illegalHeader := by decide

/-- V-D19, V-D20, V-D22, V-D23: reserved opcodes; no bit of the opcode byte is ignored. -/
theorem test_decode_reserved_opcodes :
    decodeHeader 0x0000000000000000#64 = none ∧ decodeHeader 0x0400000000000000#64 = none ∧
    decodeHeader 0x8120200000000000#64 = none ∧ decodeHeader 0x1200000000000004#64 = none := by decide

/-- V-D21: an illegal header of ff bytes frames 518 bytes. -/
theorem test_packet_length :
    packetLength 0xffffffffffffffff#64 = 518 ∧ decodeHeader 0xffffffffffffffff#64 = none := by decide

/-- R60, R68: a byte string that is not whole, or is longer than one packet, is rejected by name. -/
theorem test_decode_not_one_packet :
    decode [0x02, 0x00, 0x00] = .error .short ∧
    decode [0x03, 0x02, 0x00, 0x00, 0x00, 0x00, 0x00, 0x01, 0xaa] = .error .incomplete ∧
    decode [0x02, 0x00, 0x00, 0x00, 0x00, 0x00, 0x00, 0x01, 0xaa] = .error .trailing := by decide

/-- V-A1 (shortened operands), V-A6, V-A9: the encoder's packets. -/
theorem test_encode :
    encode (.instantiate [0xe0, 0xe1] [0xf0]) =
      [0x01, 0x02, 0x01, 0x00, 0x00, 0x00, 0x00, 0x00, 0xe0, 0xe1, 0xf0] ∧
    encode (.generate 256) = [0x02, 0x00, 0x00, 0x00, 0x00, 0x00, 0x01, 0x00] ∧
    encode (.generateAi 20 (up 1 32)) = [0x03, 0x20, 0x00, 0x00, 0x00, 0x00, 0x00, 0x14] ++ up 1 32 := by decide

/-- Words of opcode_table.json: the header is the first 64 bits; the row's `bits` alone, and an operand byte above it. -/
theorem test_table_words :
    decodeTableWord 64 0x0200000000000014 = some (.generate 20) ∧
    decodeTableWord 64 0x0301000000000007 = some (.generateAi 7 [0x00]) ∧
    decodeTableWord 72 0xaa0301000000000007 = some (.generateAi 7 [0xaa]) ∧
    decodeTableWord 64 0x0100000000000000 = some (.instantiate [] []) := by decide

/-- R7: the written-out constants of this file are what they look like. -/
theorem test_be_bytes :
    beBytes 4 0x0a0b0c0d = [0x0a, 0x0b, 0x0c, 0x0d] ∧ beNat [0x01, 0x00, 0x02] = 65538 := by decide

/-- R74: the packet of a line and its text. -/
theorem test_assemble :
    assemble .aes128 (.generate 4) = [0x02, 0x00, 0x00, 0x00, 0x00, 0x00, 0x00, 0x04] ∧
    (AsmLine.raw [0x02, 0xfe]).text = "RAW 02fe".toList ∧
    (fixture [0x01] [0x02] [] [0x03] 4).map (assemble .aes128) =
      [[0x01, 0x01, 0x01, 0x00, 0x00, 0x00, 0x00, 0x00, 0x01, 0x02],
       [0x02, 0x00, 0x00, 0x00, 0x00, 0x00, 0x00, 0x04],
       [0x03, 0x01, 0x00, 0x00, 0x00, 0x00, 0x00, 0x04, 0x03]] := by decide

/-! ## Internal operations: 95_test_vectors.md sections 2 and 3 -/

/-- V-Y1, V-Y6, V-Y8: the toy cipher of these tests is the spec's. -/
theorem test_toy :
    (toy (zeros 16) (hx16 1)).toList = hx16 0x0102030405060708090a0b0c0d0e0f11 ∧
    (toy (up 0x10 24) (up 0xf0 16)).toList = hx16 0x41464b50555a5f64191c1f2225282b2e ∧
    (toy (up 0x10 32) (up 0xf0 16)).toList = hx16 0x41464b50555a5f64696e73787d82878c := by decide

/-- V-C6, V-C8: INCR carries across the middle and up to byte 0. -/
theorem test_incr_carry :
    incr (hx16 0x0000000000000001ffffffffffffffff) = hx16 0x00000000000000020000000000000000 ∧
    incr (hx16 0x00ffffffffffffffffffffffffffffff) = hx16 0x01000000000000000000000000000000 := by decide

/-- V-C11, V-C14: INCR wraps, and stops at the first byte that does not. -/
theorem test_incr_wrap :
    incr (hx16 0xffffffffffffffffffffffffffffffff) = hx16 0 ∧
    incr (hx16 0x00ff00ff00ff00ff00ff00ff00ff00ff) = hx16 0x00ff00ff00ff00ff00ff00ff00ff0100 := by decide

/-- V-N3: the block is the cipher of the counter after the increment. -/
theorem test_next_block :
    nextBlock toy (up 0x10 16) (hx16 0xff) =
      ⟨hx16 0x11131517191b1d1f21232527292b2e2f, hx16 0x100, [⟨up 0x10 16, hx16 0x100⟩]⟩ := by decide

/-- V-F5: FILL(17) takes one byte of the second block. -/
theorem test_fill_17 :
    fill toy (up 0x10 16) (hx16 0xfe) 17 =
      ⟨hx16 0x11131517191b1d1f21232527292b2d2e ++ [0x11], hx16 0x100,
       [⟨up 0x10 16, hx16 0xff⟩, ⟨up 0x10 16, hx16 0x100⟩]⟩ := by decide

/-- V-F1: FILL(0) makes no request and leaves the counter. -/
theorem test_fill_0 :
    fill toy (up 0x10 16) (hx16 0xfe) 0 = ⟨[], hx16 0xfe, []⟩ := by decide

/-- V-U3: UPDATE with provided data, KS = 16. -/
theorem test_update_128 :
    (update .aes128 toy (up 0x10 16) (hx16 7) (some (up 0xa0 32))).key = hx16 0xb1b2b7b4bdbebbb8898a8f8c85868398 ∧
    (update .aes128 toy (up 0x10 16) (hx16 7) (some (up 0xa0 32))).v = hx16 0xa1a2a7a4adaeaba8999a9f9c95969387 := by
  decide

/-- V-U5: UPDATE, KS = 24: KEY straddles blocks 1 and 2, V straddles blocks 2 and 3. -/
theorem test_update_192 :
    (update .aes192 toy (up 0x10 24) (hx16 7) (some (up 0xa0 40))).key =
      beBytes 24 0xf1f4fbfec5c0cfca898a8f8c85868398e1e4ebeed5d0dfda ∧
    (update .aes192 toy (up 0x10 24) (hx16 7) (some (up 0xa0 40))).v = hx16 0x999a9f9c9596938791949b9ea5a0afaa := by
  decide

/-! ## Commands: 95_test_vectors.md sections 4 and 5 -/

/-- V-I4: INSTANTIATE with zero operands. -/
theorem test_instantiate_zero :
    (cmdInstantiate .aes128 toy (zeros 32) (zeros 32) ⟨zeros 16, zeros 16, false⟩).gen = liveGen := by decide

/-- V-I7: the seed is the XOR of the operands, and reaches KEY and V. -/
theorem test_instantiate_xor :
    (cmdInstantiate .aes128 toy (up 0 32) (List.replicate 32 0xff) liveGen).gen =
      ⟨hx16 0xfefcfef8fefcfef0fefcfef8fefcfee1, hx16 0xeeeceee8eeeceee0eeeceee8eeeceef2, true⟩ := by decide

/-- V-T3: GENERATE len=20. -/
theorem test_generate_20 :
    (cmdGenerate .aes128 toy 20 liveGen).output =
      hx16 0x0306090c0f1215181b1e2124272a2d34 ++ [0x03, 0x06, 0x09, 0x0c] ∧
    (cmdGenerate .aes128 toy 20 liveGen).gen =
      ⟨hx16 0x0306090c0f1215181b1e2124272a2d36, hx16 0x0306090c0f1215181b1e2124272a2d37, true⟩ := by decide

/-- V-T6: GENERATE len=0 delivers nothing and still rekeys. -/
theorem test_generate_0 :
    (cmdGenerate .aes128 toy 0 liveGen).output = [] ∧
    (cmdGenerate .aes128 toy 0 liveGen).gen =
      ⟨hx16 0x0306090c0f1215181b1e2124272a2d34, hx16 0x0306090c0f1215181b1e2124272a2d35, true⟩ := by decide

/-- V-T5: GENERATE_AI len=20, add=0102..20: both Updates take the additional input. -/
theorem test_generateAi_20 :
    (cmdGenerateAi .aes128 toy 20 (up 1 32) liveGen).output =
      hx16 0x151a2724291e1b181d226f6c7166634a ++ [0x15, 0x1a, 0x27, 0x24] ∧
    (cmdGenerateAi .aes128 toy 20 (up 1 32) liveGen).gen =
      ⟨hx16 0x141824202c181c10142864607c686c5c, hx16 0x040834303c080c00043874706c787c6d, true⟩ := by decide

/-- The OUT beats of V-T3 (R127 lines 6 and 11). -/
theorem test_beats :
    beatsOf (hx16 0x0306090c0f1215181b1e2124272a2d34 ++ [0x03, 0x06, 0x09, 0x0c]) =
      [⟨hx16 0x0306090c0f1215181b1e2124272a2d34, 16, false⟩,
       ⟨[0x03, 0x06, 0x09, 0x0c, 0, 0, 0, 0, 0, 0, 0, 0, 0, 0, 0, 0], 4, true⟩] := by decide

/-- R126: 12, 23 and 33 micro-steps for KS = 16 and LEN = 20; V-H3 and V-H5: 27 and 41 for KS = 24. -/
theorem test_step_counts :
    commandSteps .aes128 (.instantiate [] []) = 12 ∧ commandSteps .aes128 (.generate 20) = 23 ∧
    commandSteps .aes128 (.generateAi 20 []) = 33 ∧ commandSteps .aes192 (.generate 20) = 27 ∧
    commandSteps .aes192 (.generateAi 20 []) = 41 := by decide

/-! ## Errors: 95_test_vectors.md section 5.5 -/

/-- V-E1, V-E3: NOT_INSTANTIATED, also when the operand length is wrong. -/
theorem test_not_instantiated :
    (packetEffect .aes128 toy (hx8 0x0200000000000004) ⟨[], [], false⟩).code = 2 ∧
    (packetEffect .aes128 toy (hx8 0x031f000000000004 ++ zeros 31) ⟨[], [], false⟩).code = 2 := by decide

/-- V-E4, V-E12: ILLEGAL_COMMAND wins over the other two. -/
theorem test_illegal_wins :
    (packetEffect .aes128 toy (hx8 0x0201000000000004 ++ zeros 1) ⟨[], [], false⟩).code = 1 ∧
    (packetEffect .aes128 toy (hx8 0x011f200000000001 ++ zeros 63) liveGen).code = 1 := by decide

/-- V-E5, V-E8: INVALID_SEED_LENGTH; an empty additional input is not none. -/
theorem test_invalid_seed_length :
    (packetEffect .aes128 toy (hx8 0x011f200000000000 ++ zeros 63) ⟨[], [], false⟩).code = 3 ∧
    (packetEffect .aes128 toy (hx8 0x0300000000000001) liveGen).code = 3 := by decide

/-- V-E10 on the machine: INSTANTIATE without personalization is refused, and the live generator is kept. -/
theorem test_error_keeps_generator :
    nextOf (stepWith toy (offering live (hx8 0x0120000000000000 ++ up 1 32))) =
      some { live with rcode := 3, phase := .resp, trace := [.cmd (hx8 0x0120000000000000 ++ up 1 32)] } := by
  decide

/-! ## Single micro-steps: the trace of R127 -/

/-- Line 1: GENERATE len=20 is accepted; the two bytes behind the packet stay. -/
theorem test_step_accept :
    nextOf (stepWith toy (offering live [0x02, 0x00, 0x00, 0x00, 0x00, 0x00, 0x00, 0x14, 0x01, 0x02])) =
      some { inGen .fill 20 with
        cmd := [0x01, 0x02], trace := [.cmd [0x02, 0x00, 0x00, 0x00, 0x00, 0x00, 0x00, 0x14]] } := by decide

/-- Line 3: the counter is incremented. -/
theorem test_step_inc :
    nextOf (stepWith toy (inGen .inc 20)) =
      some { inGen .req 20 with v := hx16 0x0102030405060708090a0b0c0d0e0f13 } := by decide

/-- Line 10: with 4 bytes to go, BLKR keeps 4 bytes of the answer. -/
theorem test_step_wait_gen :
    (nextOf (stepWith toy { inGen .wait 4 with
      inflight := some ⟨liveGen.key, hx16 0x0102030405060708090a0b0c0d0e0f14⟩ })).map (fun t => (t.blkr, t.phase)) =
      some ([0x03, 0x06, 0x09, 0x0c, 0, 0, 0, 0, 0, 0, 0, 0, 0, 0, 0, 0], .emit) := by decide

/-- Line 11: the last beat has NB = 4 and LAST = 1. -/
theorem test_step_emit :
    nextOf (stepWith toy { inGen .emit 4 with blkr := [3, 6, 9, 12, 0, 0, 0, 0, 0, 0, 0, 0, 0, 0, 0, 0] }) =
      some { inGen .fill 0 with trace := [.out ⟨[3, 6, 9, 12, 0, 0, 0, 0, 0, 0, 0, 0, 0, 0, 0, 0], 4, true⟩] } := by
  decide

/-- Line 12: the Update after the output is started. -/
theorem test_step_fill_post :
    nextOf (stepWith toy (inGen .fill 0)) = some { inGen .fill 32 with stage := .post } := by decide

/-- Line 20: the second answer goes to TEMP[16..32). -/
theorem test_step_wait_update :
    (nextOf (stepWith toy { inUpd .wait .post 16 with
      inflight := some ⟨liveGen.key, hx16 0x0102030405060708090a0b0c0d0e0f16⟩ })).map (fun t => (t.temp, t.rem, t.phase)) =
      some (zeros 16 ++ hx16 0x0306090c0f1215181b1e2124272a2d37, 0, .fill) := by decide

/-- Line 22 with provided data: T = TEMP XOR PD is split into KEY and V. -/
theorem test_step_mix :
    (nextOf (stepWith toy { inUpd .mix .post 0 with temp := zeros 32 })).map (fun t => (t.key, t.v, t.temp, t.phase)) =
      some (up 1 16, up 17 16, zeros 32, .resp) := by decide

/-- R122 in stage S_INST: INST becomes 1 with the new KEY and V. -/
theorem test_step_mix_inst :
    (nextOf (stepWith toy { inUpd .mix .inst 0 with temp := zeros 32 })).map (fun t => (t.key, t.inst, t.phase)) =
      some (up 1 16, true, .resp) := by decide

/-- Line 23: the response is delivered and the latches are cleared. -/
theorem test_step_resp :
    nextOf (stepWith toy inResp) = some { live with trace := [.rsp 2] } := by decide

/-- R34, R168: seven bytes are no packet yet; the block waits. -/
theorem test_step_waits_for_packet :
    nextOf (stepWith toy (offering live (zeros 7))) = some (offering live (zeros 7)) := by decide

/-- R129: reset in the middle of a command. -/
theorem test_step_reset :
    nextOf (stepWith toy { inUpd .wait .post 16 with moves := [.env (.reset false)] }) = some { State.reset with trace := [.rst] } := by
  decide

/-- The step after placing a table word runs its instruction. -/
theorem test_with_fetch_word :
    nextOf (step (State.reset.withFetchWord 64 0x0200000000000014)) =
      some { running with rcode := 2, phase := .resp, trace := [.cmd (hx8 0x0200000000000014)] } := by decide

/-- R160: a held reset: no packet is taken, however long it is held. -/
theorem test_step_held_reset :
    (nextOf (stepWith toy { inUpd .wait .post 16 with moves := [.env (.reset true)] })).map (fun t => (t.rstI, t.cmdReady, t.idleO)) =
      some (.asserted, false, true) ∧
    nextOf (stepWith toy { State.reset with rstI := .asserted, cmd := hx8 0x0200000000000014 }) =
      some { State.reset with rstI := .asserted, cmd := hx8 0x0200000000000014 } := by decide

/-- R160: at the moment of release CMD is not ready; after it, it is. -/
theorem test_step_release :
    State.reset.cmdReady = false ∧ nextOf (step State.reset) = some running ∧ running.cmdReady = true ∧
    nextOf (stepWith toy { running with rstI := .asserted, moves := [.env .releaseReset] }) = some State.reset := by
  decide

/-! ## Witnesses: for each statement with hypotheses, a state and operands that meet them -/

/-- Witness of Obligations.EveryStepKeepsTheInvariant. -/
theorem test_witness_everyStepKeepsTheInvariant :
    (inGen .fill 20).Inv ∧ nextOf (step (inGen .fill 20)) = some (inGen .inc 20) := by decide

/-- Witness of Obligations.EveryStepKeepsTheInvariant for a move of the environment. -/
theorem test_witness_everyStepKeepsTheInvariant2 :
    ({ inGen .wait 4 with moves := [.env (.reset false)] } : State).Inv ∧
    nextOf (step { inGen .wait 4 with moves := [.env (.reset false)] }) = some { State.reset with trace := [.rst] } := by
  decide

/-- Witness of Obligations.MachineNeverStopsFromTheInvariant. -/
theorem test_witness_machineNeverStopsFromTheInvariant :
    (inUpd .wait .post 16).Inv := by decide

/-- Witness of Obligations.StuckExactlyOutsideTheReachableCombinations. -/
theorem test_witness_stuckExactlyOutsideTheReachableCombinations :
    (inGen .fill 20).sequencersTurn ∧ (inGen .fill 20).placed = true ∧
    (inGen .mix 0).sequencersTurn ∧ (inGen .mix 0).placed = false ∧ isStuck (step (inGen .mix 0)) = true := by
  decide

/-- Witness of Obligations.ResetInAnyPhase. -/
theorem test_witness_resetInAnyPhase :
    ({ inGen .emit 4 with moves := [.env (.reset false), .sequencer] } : State).moves = .env (.reset false) :: [.sequencer] := by
  decide

/-- Witness of Obligations.DecodeInvertsEncode. -/
theorem test_witness_decodeInvertsEncode :
    (Instr.instantiate (zeros 255) (zeros 0)).wellFormed = true ∧ (Instr.generate 4294967295).wellFormed = true ∧
    (Instr.generateAi 0 (zeros 255)).wellFormed = true := by
  simp only [Instr.wellFormed, operandFits, zeros, List.length_replicate]; decide

/-- Witness of Obligations.EncodeInvertsDecode. -/
theorem test_witness_encodeInvertsDecode :
    decode [0x03, 0x01, 0x00, 0x00, 0xff, 0xff, 0xff, 0xff, 0xaa] = .ok (.generateAi 4294967295 [0xaa]) := by decide

/-- Witness of Obligations.OpcodeRowsAreDisjoint. -/
theorem test_witness_opcodeRowsAreDisjoint :
    opRows[1] ∈ opRows ∧ opRows[1].hits 0x02000000ffffffff#64 = true := by decide

/-- Witness of Obligations.IllegalHeadersAreThoseOfTheMap. -/
theorem test_witness_illegalHeadersAreThoseOfTheMap :
    decodeHeader 0x0128ff0000000000#64 = some .instantiate ∧ decodeHeader 0x02000000ffffffff#64 = some .generate ∧
    decodeHeader 0x03ff000000000000#64 = some .generateAi ∧ decodeHeader 0x0100000100000000#64 = none ∧
    hdrRsv 0x0100000100000000#64 ≠ 0 := by decide

/-- Witness of Obligations.PacketsAreConsumedWhole. -/
theorem test_witness_packetsAreConsumedWhole :
    let p := hx8 0x0201010100000004 ++ zeros 2
    let s := offering live (p ++ [0x55])
    inPhase s .idle ∧ wholePacket p ∧ s.cmd = p ++ [0x55] ∧ decodeHeader (headerWord p) = none := by decide

/-- Witness of Obligations.ByteStringsOnWires. -/
theorem test_witness_byteStringsOnWires :
    0 < (up 1 5).length ∧ 4 < (up 1 5).length := by decide

/-- Witness of Obligations.StepRunsTheDecodedInstruction. -/
theorem test_witness_stepRunsTheDecodedInstruction :
    let s := { offering live (encode (.generateAi 0 (up 1 32)) ++ [0x01]) with moves := [.sequencer, .env .pause] }
    s.sequencersTurn ∧ s.placed = true ∧ s.phase = .idle ∧ s.rstI = .inactive ∧ (Instr.generateAi 0 (up 1 32)).wellFormed = true ∧
    s.cmd = encode (.generateAi 0 (up 1 32)) ++ [0x01] := by decide

/-- Witness of Obligations.MissingPersonalizationIsZeros. -/
theorem test_witness_missingPersonalizationIsZeros :
    (up 1 32).length = KeySize.aes128.seed ∧ (up 1 40).length = KeySize.aes192.seed ∧
    (up 1 48).length = KeySize.aes256.seed := by decide

/-- Witness of Obligations.IncrementIsAddOneModulo2To128. -/
theorem test_witness_incrementIsAddOneModulo2To128 :
    (hx16 0xffffffffffffffffffffffffffffffff).length = 16 := by decide

/-- Witness of Obligations.IncrementCarryChain. -/
theorem test_witness_incrementCarryChain :
    (0xfe : Byte) ≠ 0xff ∧ (0x00 : Byte) ≠ 0xff := by decide

/-- Witness of Obligations.FillIsTheKeystream. -/
theorem test_witness_fillIsTheKeystream :
    (hx16 0xfffffffffffffffffffffffffffffffe).length = 16 := by decide

/-- Witness of Obligations.FillPrefixProperty. -/
theorem test_witness_fillPrefixProperty :
    17 ≤ 32 ∧ 0 ≤ 0 := by decide

/-- Witness of Obligations.UpdateSplitsTheMixedKeystream. -/
theorem test_witness_updateSplitsTheMixedKeystream :
    (hx16 7).length = 16 ∧ (∀ d ∈ some (up 0xa0 40), d.length = KeySize.aes192.seed) ∧
    (∀ d ∈ (none : Option Bytes), d.length = KeySize.aes192.seed) := by decide

/-- Witness of Obligations.InstantiateCompletes. -/
theorem test_witness_instantiateCompletes :
    live.readyForCommand ∧ running.readyForCommand ∧ (up 0 32).length = live.ks.seed ∧ (up 0xe0 32).length = live.ks.seed := by
  decide

/-- Witness of Obligations.InstantiateCompletes for the other key sizes. -/
theorem test_witness_instantiateCompletes2 :
    ({ State.resetOf .aes192 with rstI := .inactive } : State).readyForCommand ∧ (up 0 40).length = (State.resetOf .aes192).ks.seed ∧
    ({ State.resetOf .aes256 with rstI := .inactive } : State).readyForCommand ∧ (up 0 48).length = (State.resetOf .aes256).ks.seed := by
  decide

/-- Witness of Obligations.GenerateCompletes. -/
theorem test_witness_generateCompletes :
    live.readyForCommand ∧ live.inst = true := by decide

/-- Witness of Obligations.GenerateAiCompletes. -/
theorem test_witness_generateAiCompletes :
    live.readyForCommand ∧ live.inst = true ∧ (up 1 32).length = live.ks.seed := by decide

/-- Witness of Obligations.SequencerRefinesTheCommandLevel. -/
theorem test_witness_sequencerRefinesTheCommandLevel :
    (offering live (hx8 0x0320000000000014 ++ up 1 32 ++ [0x01])).readyForCommand ∧
    wholePacket (hx8 0x0320000000000014 ++ up 1 32) ∧ (offering live (hx8 0xff03000000000000 ++ up 1 3)).readyForCommand ∧
    wholePacket (hx8 0xff03000000000000 ++ up 1 3) := by decide

/-- Witness of Obligations.TransfersCarryTheEffect. -/
theorem test_witness_transfersCarryTheEffect :
    (packetEffect .aes128 toy (hx8 0x0400000000000004) liveGen).code ≠ codeOk := by decide

/-- Witness of Obligations.BeatsCutTheOutput. -/
theorem test_witness_beatsCutTheOutput :
    0 < ((up 1 33).length + 15) / 16 ∧ 2 < ((up 1 33).length + 15) / 16 ∧ 1 + 1 < ((up 1 33).length + 15) / 16 := by
  decide

/-- Witness of Obligations.RequestCounts. -/
theorem test_witness_requestCounts :
    (up 1 32).length = KeySize.aes128.seed ∧ (up 1 48).length = KeySize.aes256.seed ∧ liveGen.inst = true := by
  decide

/-- Witness of Obligations.OnlyTheXorOfTheOperandsMatters. -/
theorem test_witness_onlyTheXorOfTheOperandsMatters :
    (up 0 32).length = live.ks.seed ∧ (zeros 32).length = live.ks.seed ∧
    List.zipWith (· ^^^ ·) (up 0 32) (zeros 32) = List.zipWith (· ^^^ ·) (zeros 32) (up 0 32) := by decide

/-- Witness of Obligations.InstantiateForgetsTheOldGenerator. -/
theorem test_witness_instantiateForgetsTheOldGenerator :
    (offering live (encode (.instantiate (up 0 32) (up 1 32)) ++ [0x02])).readyForCommand ∧
    (offering running (encode (.instantiate (up 0 32) (up 1 32)) ++ [])).readyForCommand ∧ live.ks = running.ks ∧
    (up 0 32).length = live.ks.seed ∧ (up 1 32).length = live.ks.seed := by decide

/-- Witness of Obligations.CommandsDependOnTheGeneratorStateAlone. -/
theorem test_witness_commandsDependOnTheGeneratorStateAlone :
    let p := hx8 0x0200000000000014
    let s1 := offering live (p ++ [0x02])
    let s2 := { offering live p with stage := .post, trace := [.rst] }
    s1.readyForCommand ∧ s2.readyForCommand ∧ s1.ks = s2.ks ∧ s1.generator = s2.generator ∧ wholePacket p ∧
    s1.cmd = p ++ [0x02] ∧ s2.cmd = p ++ [] ∧ s1 ≠ s2 := by decide

/-- Witness of Obligations.ExecFrame. -/
theorem test_witness_execFrame :
    nextOf (exec (.generate 20) live) = some (inGen .fill 20) ∧ (inGen .fill 20).rcode = 0 ∧
    nextOf (exec (.generateAi 1 []) live) = some { live with rcode := 3, phase := .resp } ∧
    ({ live with rcode := 3, phase := .resp } : State).rcode ≠ 0 := by decide

/-- Witness of Obligations.NotInstantiatedIsRaised. -/
theorem test_witness_notInstantiatedIsRaised :
    State.reset.inst = false := by decide

/-- Witness of Obligations.InvalidSeedLengthIsRaised. -/
theorem test_witness_invalidSeedLengthIsRaised :
    ((up 0 31).length ≠ live.ks.seed ∨ (up 0 32).length ≠ live.ks.seed) ∧ live.inst = true ∧ (up 0 33).length ≠ live.ks.seed ∧
    nextOf (exec (.generate 0) live) = some { live with stage := .gen, phase := .fill } ∧ live.rcode ≠ 3 := by
  decide

/-- Witness of Obligations.IllegalCommandIsRaised. -/
theorem test_witness_illegalCommandIsRaised :
    let p := hx8 0x0400000000000004
    let s := offering live (p ++ [0x01])
    inPhase s .idle ∧ wholePacket p ∧ s.cmd = p ++ [0x01] ∧ decodeHeader (headerWord p) = none := by decide

/-- Witness of Obligations.ErrorsFollowThePriorityOrder. -/
theorem test_witness_errorsFollowThePriorityOrder :
    let p := hx8 0x031f000000000004 ++ zeros 31
    inPhase (offering running p) .idle ∧ inPhase (offering live p) .idle ∧ wholePacket p ∧ (offering live p).cmd = p ++ [] := by
  decide

/-- The four cases of Obligations.ErrorsFollowThePriorityOrder, on the machine (V-E4, V-E3, V-E9 shortened, V-G1's header). -/
theorem test_witness_errorsFollowThePriorityOrder_cases :
    (nextOf (stepWith toy (offering running (hx8 0x0201000000000004 ++ zeros 1)))).map (·.rcode) = some 1 ∧
    (nextOf (stepWith toy (offering running (hx8 0x031f000000000004 ++ zeros 31)))).map (·.rcode) = some 2 ∧
    (nextOf (stepWith toy (offering live (hx8 0x031f000000000004 ++ zeros 31)))).map (·.rcode) = some 3 ∧
    (nextOf (stepWith toy (offering live (hx8 0x0200000000000004)))).map (fun t => (t.rcode, t.phase)) = some (0, .fill) := by
  decide

/-- Witness of Obligations.ARefusedCommandLeavesNoMark. -/
theorem test_witness_aRefusedCommandLeavesNoMark :
    let p := hx8 0x0300000000000001
    (offering live p).readyForCommand ∧ wholePacket p ∧ (packetEffect live.ks toy p live.generator).code ≠ codeOk := by
  decide

/-- Witness of Obligations.FillLoopControl. -/
theorem test_witness_fillLoopControl :
    inPhase (inGen .fill 4) .fill ∧ (inGen .fill 4).rem ≠ 0 ∧ inPhase (inGen .fill 0) .fill ∧ (inGen .fill 0).rem = 0 ∧
    (inGen .fill 0).stage = .gen ∧ inPhase (inUpd .fill .pre 0) .fill ∧ (inUpd .fill .pre 0).rem = 0 ∧
    (inUpd .fill .pre 0).stage ≠ .gen := by decide

/-- Witness of Obligations.IncMicroStep. -/
theorem test_witness_incMicroStep :
    inPhase (inUpd .inc .pre 32) .inc := by decide

/-- Witness of Obligations.RequestCarriesKeyAndCounter. -/
theorem test_witness_requestCarriesKeyAndCounter :
    inPhase (inGen .req 4) .req ∧ (inGen .req 4).creqReady = true := by decide

/-- Witness of Obligations.AnswerIsTaken. -/
theorem test_witness_answerIsTaken :
    inPhase (inGen .wait 4) .wait ∧ (inGen .wait 4).crspValid = true ∧ (inGen .wait 4).stage = .gen ∧
    inPhase (inUpd .wait .inst 16) .wait ∧ (inUpd .wait .inst 16).stage ≠ .gen ∧ inPhase (inUpd .wait .post 32) .wait ∧
    (inUpd .wait .inst 16).crspValid = true := by decide

/-- Witness of Obligations.EmitDeliversTheBeat. -/
theorem test_witness_emitDeliversTheBeat :
    inPhase (inGen .emit 20) .emit ∧ inPhase (inGen .emit 4) .emit ∧ (inGen .emit 4).outReady = true := by decide

/-- Witness of Obligations.MixSplitsAndHandsOver. -/
theorem test_witness_mixSplitsAndHandsOver :
    inPhase (inUpd .mix .inst 0) .mix ∧ inPhase (inUpd .mix .pre 0) .mix ∧ inPhase (inUpd .mix .post 0) .mix ∧
    inPhase { inUpd .mix .post 0 with pd := zeros 32, pdv := false } .mix := by decide

/-- Witness of Obligations.ResponseIsDeliveredAndTheLatchesCleared. -/
theorem test_witness_responseIsDeliveredAndTheLatchesCleared :
    inPhase inResp .resp ∧ inResp.rspReady = true := by decide

/-- Witness of Obligations.WaitingForATransferChangesNothing. -/
theorem test_witness_waitingForATransferChangesNothing :
    inPhase ((inGen .req 4).setReady .creq false) .req ∧ inPhase ((inGen .wait 4).setReady .crsp false) .wait ∧
    inPhase ((inGen .emit 4).setReady .out false) .emit ∧ inPhase (inResp.setReady .rsp false) .resp := by decide

/-- Witness of Obligations.WaitingForATransferChangesNothing for a held reset with a whole packet on CMD. -/
theorem test_witness_waitingForATransferChangesNothing4 :
    let s := { offering running (hx8 0x0200000000000014) with rstI := .asserted }
    s.Inv ∧ s.moves = [] ∧ s.rstI = .asserted := by decide

/-- Witness of Obligations.WaitingForATransferChangesNothing for seven bytes on CMD. -/
theorem test_witness_waitingForATransferChangesNothing3 :
    inPhase (offering live (zeros 7)) .idle ∧ (offering live (zeros 7)).cmd.length < 8 := by decide

/-- Witness of Obligations.WaitingForATransferChangesNothing for a packet whose operand is not there whole. -/
theorem test_witness_waitingForATransferChangesNothing2 :
    let s := offering live (hx8 0x0320000000000014 ++ zeros 31)
    inPhase s .idle ∧ s.cmd.length < 8 + (s.cmd.getD 1 0).toNat + (s.cmd.getD 2 0).toNat := by decide

/-- Witness of Obligations.PhaseMovesAlongTheEdges. -/
theorem test_witness_phaseMovesAlongTheEdges :
    (inGen .fill 4).Inv ∧ nextOf (stepWith toy (inGen .fill 4)) = some (inGen .inc 4) ∧ (inGen .inc 4).phase ≠ (inGen .fill 4).phase ∧
    (inGen .fill 0).Inv ∧ nextOf (stepWith toy (inGen .fill 0)) = some { inGen .fill 32 with stage := .post } ∧
    (inGen .fill 0).sequencersTurn := by decide

/-- Witness of Obligations.KeyAndCounterAreWrittenOnlySo. -/
theorem test_witness_keyAndCounterAreWrittenOnlySo :
    (inUpd .mix .post 0).Inv ∧
    (nextOf (stepWith toy (inUpd .mix .post 0))).map (fun t => decide (t.key ≠ (inUpd .mix .post 0).key ∧ t.v ≠ (inUpd .mix .post 0).v)) =
      some true := by decide

/-- Witness of Obligations.InstantiatedFlagChangesOnlySo. -/
theorem test_witness_instantiatedFlagChangesOnlySo :
    (offering live (hx8 0x0120200000000000 ++ up 0 64)).Inv ∧
    (nextOf (stepWith toy (offering live (hx8 0x0120200000000000 ++ up 0 64)))).map (·.inst) = some false ∧
    (inUpd .mix .inst 0).Inv ∧ (inUpd .mix .inst 0).inst = false ∧
    (nextOf (stepWith toy (inUpd .mix .inst 0))).map (·.inst) = some true := by decide

/-- Witness of Obligations.ProvidedDataIsHeldForTheCommand. -/
theorem test_witness_providedDataIsHeldForTheCommand :
    (inUpd .mix .pre 0).Inv ∧ (inUpd .mix .pre 0).phase ≠ .idle ∧ (inUpd .mix .pre 0).phase ≠ .resp ∧
    (nextOf (stepWith toy (inUpd .mix .pre 0))).map (·.pd) = some (up 1 32) := by decide

/-- Witness of Obligations.PacketsAreTakenOnlyWhenIdle. -/
theorem test_witness_packetsAreTakenOnlyWhenIdle :
    (offering live (hx8 0x0200000000000004)).Inv ∧
    (nextOf (stepWith toy (offering live (hx8 0x0200000000000004)))).map (·.cmd) = some [] ∧
    (nextOf (stepWith toy { live with moves := [.env (.offer [0x02])] })).map (·.cmd) = some [0x02] := by decide

/-- Witness of Obligations.OneResponsePerPacket. -/
theorem test_witness_oneResponsePerPacket :
    (offering live (hx8 0x0200000000000004)).Inv ∧ inResp.Inv ∧
    (nextOf (stepWith toy inResp)).map (fun t => responsesOf t.trace) = some [2] := by decide

/-- Witness of Obligations.AnswersAreOfTheCurrentKeyAndCounter. -/
theorem test_witness_answersAreOfTheCurrentKeyAndCounter :
    (inGen .wait 20).Inv ∧
    (nextOf (stepWith toy (inGen .wait 20))).map (·.trace) = some ((inGen .wait 20).trace ++ [.crsp (toy liveGen.key liveGen.v).toList]) := by
  decide

/-- Witness of Obligations.WritesStayInBounds. -/
theorem test_witness_writesStayInBounds :
    inPhase (inUpd .wait .pre 16) .wait ∧ (inUpd .wait .pre 16).stage ≠ .gen ∧ inPhase (inGen .emit 4) .emit := by
  decide

/-- Witness of Obligations.NoReservedResponseCodeIsDelivered. -/
theorem test_witness_noReservedResponseCodeIsDelivered :
    inResp.Inv ∧ nextOf (stepWith toy inResp) = some { live with trace := [.rsp 2] } ∧
    ({ live with trace := [.rsp 2] } : State).trace = inResp.trace ++ [.rsp 2] := by decide

/-- Witness of Obligations.HostSeesNoSecretRegister. -/
theorem test_witness_hostSeesNoSecretRegister :
    let s := { inGen .emit 4 with blkr := up 1 4 ++ zeros 12 }
    let s' := { s with key := zeros 16, v := zeros 16, temp := up 3 32, pd := up 4 32, inflight := none }
    s.Inv ∧ s'.Inv ∧ (nextOf (stepWith toy s)).map (fun t => hostEvents t.trace) = some [.out ⟨up 1 4 ++ zeros 12, 4, true⟩] ∧
    (nextOf (stepWith toy s')).isSome = true := by decide

/-- Witness of Obligations.StatusWires. -/
theorem test_witness_statusWires :
    nextOf (stepWith toy { inGen .emit 4 with moves := [.env .readStatus] }) =
      some { inGen .emit 4 with trace := [.status true false] } := by decide

/-- Witness of Obligations.KeySizeNeverChanges. -/
theorem test_witness_keySizeNeverChanges :
    nextOf (stepWith toy (inGen .fill 4)) = some (inGen .inc 4) := by decide

/-- Witness of Obligations.WiresAreDrivenInTheirPhaseAndNeverInReset. -/
theorem test_witness_wiresAreDrivenInTheirPhaseAndNeverInReset :
    State.reset.Inv ∧ State.reset.rstI = .released ∧ State.reset.sequencersTurn ∧
    ({ running with rstI := .asserted, moves := [.env .releaseReset] } : State).Inv ∧ (inGen .emit 4).Inv ∧
    (inGen .emit 4).rstI = .inactive ∧ (nextOf (stepWith toy (inGen .emit 4))).map (·.trace) = some [.out (inGen .emit 4).beat] := by
  decide

/-- Witness of Obligations.DelaysDoNotMatter. -/
theorem test_witness_delaysDoNotMatter :
    let s := { inGen .fill 4 with moves := [.env .pause, .env (.setReady .out false), .sequencer] }
    (∀ m ∈ s.moves, m.isDelay = true) ∧ nextOf (runWith toy 3 s) = some { inGen .inc 4 with outReady := false } := by
  decide

end Sys2Proof.Tests
end

section
/-! The key size through a step (R6): every agent's move leaves it, so the step does. -/

namespace Sys2Proof.Machine

variable {E : Cipher} {s t : State}

@[simp] theorem setReady_ks (s : State) (c : Channel) (b : Bool) : (s.setReady c b).ks = s.ks := by
  cases c <;> rfl

/-- Reset included: it builds the block again for the key size it had (R129). -/
@[simp] theorem envMove_ks (s : State) (m : EnvMove) : (s.envMove m).ks = s.ks := by
  cases m with
  | pause => rfl
  | offer bytes => rfl
  | setReady c b => exact setReady_ks s c b
  | readStatus => exact note_ks s _
  | reset held => exact applyReset_ks s held
  | releaseReset => exact releaseReset_ks s

theorem acceptCommand_ks (h : acceptCommand s = .next t) : t.ks = s.ks := by
  rcases acceptCommand_next h with
    rfl | ⟨-, rfl⟩ |
    ⟨p, rest, -, -, ⟨c, rfl⟩ | ⟨ent, pers, -, -, -, rfl⟩ | ⟨len, -, -, rfl⟩ | ⟨len, add, -, -, -, rfl⟩⟩
  · rfl
  · rfl
  · simp
  · simp
  · simp
  · simp

/-- Phase `IDLE` is acceptance; every other micro-step updates the state it stands in, at other fields. -/
theorem microStep_ks (h : microStep E (acceptCommand s) s = .next t) : t.ks = s.ks := by
  rcases microStep_cases h with
    ⟨-, ha⟩ | ⟨-, -, rfl⟩ | ⟨-, -, -, rfl⟩ | ⟨-, -, -, rfl⟩ | ⟨-, rfl⟩ | ⟨-, -, rfl⟩ | ⟨-, -, rfl⟩ | ⟨-, -, rfl⟩ |
    ⟨q, -, -, -, -, rfl⟩ | ⟨q, -, -, -, -, rfl⟩ | ⟨-, -, rfl⟩ | ⟨-, -, rfl⟩ |
    ⟨-, -, rfl⟩ | ⟨-, -, rfl⟩ | ⟨-, -, rfl⟩ | ⟨-, -, rfl⟩ | ⟨-, -, rfl⟩
  case inl => exact acceptCommand_ks ha
  all_goals simp

theorem stepWith_ks (h : stepWith E s = .next t) : t.ks = s.ks := by
  rcases stepWith_cases h with ⟨m, ms, -, rfl⟩ | ⟨-, -, hm⟩
  · exact envMove_ks { s with moves := ms } m
  · exact microStep_ks (s := s.turnTaken) hm

/-- Settles O58: a step is a move of the environment or a micro-step, and each leaves `KS`. -/
theorem keySizeNeverChanges : Obligations.KeySizeNeverChanges :=
  fun _ _ _ h => stepWith_ks h

end Sys2Proof.Machine
end

section
/-! The state and its invariant (10_state.md): reset, the invariant through a step, and the status wires. -/

namespace Sys2Proof.Machine

variable {E : Cipher} {s t : State}

/-! ## Reset (R26, R27) -/

/-- Settles O1: each clause is a field of `State.resetOf`. -/
theorem resetGivesEveryRegisterItsResetValue : Obligations.ResetGivesEveryRegisterItsResetValue :=
  fun _ => ⟨rfl, rfl, rfl, rfl, rfl, rfl, rfl, rfl, rfl, rfl, rfl, rfl⟩

/-- Settles O2: the reset registers have the invariant, which does not look at the environment's side. -/
theorem resetStateHasTheInvariant : Obligations.ResetStateHasTheInvariant :=
  ⟨fun ks _ _ _ _ _ _ =>
    inv_of_sameRegisters (resetOf_inv ks) rfl rfl rfl rfl rfl rfl rfl rfl rfl rfl rfl rfl rfl rfl rfl,
   resetOf_inv .aes128⟩

/-! ## The invariant through a step (R12, R27, R47, R124, R160) -/

/-- Who moves next is the environment's side, so taking a mover off the list keeps the invariant. -/
theorem inv_withMoves (h : s.Inv) (ms : List Move) : ({ s with moves := ms } : State).Inv :=
  inv_of_sameRegisters h rfl rfl rfl rfl rfl rfl rfl rfl rfl rfl rfl rfl rfl rfl rfl

theorem stepWith_inv (hI : s.Inv) (h : stepWith E s = .next t) : t.Inv := by
  rcases stepWith_cases h with ⟨m, ms, -, rfl⟩ | ⟨-, -, hm⟩
  · exact envMove_inv m (inv_withMoves hI ms)
  · exact microStep_inv (inv_withMoves hI s.moves.tail) hm

/-- Settles O3: a step is a move of the environment or a micro-step, and each keeps the invariant. -/
theorem everyStepKeepsTheInvariant : Obligations.EveryStepKeepsTheInvariant :=
  fun s _ hI h => stepWith_inv (E := Config.E) hI ((step_eq s).symm.trans h)

/-! ## The status wires (R23, R43, R175) -/

theorem stepWith_env {m : EnvMove} {ms : List Move} (h : s.moves = .env m :: ms) :
    stepWith E s = .next (State.envMove { s with moves := ms } m) := by
  unfold stepWith; rw [h]

/-- Settles O57: reading the wires is a move of the environment that only notes them. -/
theorem statusWires : Obligations.StatusWires :=
  ⟨fun _ _ _ h => stepWith_env h, fun _ => ⟨rfl, rfl⟩⟩

end Sys2Proof.Machine
end

section
/-! What the accessors of the state rest on: INCR as addition (R81), and a legal packet against its command (R60 to R64). -/

namespace Sys2Proof.Machine

variable {E : Cipher} {s t : State}

/-! ## INCR as addition (R80, R81) -/

theorem beNat_concat (s : Bytes) (b : Byte) : beNat (s ++ [b]) = 256 * beNat s + b.toNat := by
  simp [beNat_append, beNat_cons, mul_comm]

/-- The carry chain adds one, its bytes standing least significant first: a byte that wraps leaves the sum to the bytes
above it, any other byte takes it. -/
theorem beNat_reverse_incrChain (v : Bytes) :
    beNat (incrChain v).reverse = (beNat v.reverse + 1) % 256 ^ v.length := by
  induction v with
  | nil => simp [incrChain]
  | cons b bs ih =>
    have hlt : beNat bs.reverse < 256 ^ bs.length := by simpa using beNat_lt bs.reverse
    have hb := b.isLt
    rw [List.reverse_cons, beNat_concat, List.length_cons, pow_succ']
    by_cases hw : b + 1 = 0
    · have hff : b.toNat = 255 := by bv_omega
      rw [incrChain, if_pos hw, List.reverse_cons, beNat_concat, ih, hff,
        show 256 * beNat bs.reverse + 255 + 1 = 256 * (beNat bs.reverse + 1) by ring, Nat.mul_mod_mul_left]
      rfl
    · have hnext : (b + 1).toNat = b.toNat + 1 ∧ b.toNat + 1 < 256 := by bv_omega
      rw [incrChain, if_neg hw, List.reverse_cons, beNat_concat, hnext.1, Nat.mod_eq_of_lt (by omega), add_assoc]

theorem beNat_incr (v : Bytes) : beNat (incr v) = (beNat v + 1) % 256 ^ v.length := by
  simpa [incr] using beNat_reverse_incrChain v.reverse

/-- One increment of a 16-byte counter is addition of one modulo `2^128` (R81). -/
theorem incr_eq_counterPlus_one (v : Bytes) (h : v.length = 16) : incr v = counterPlus v 1 := by
  refine beNat_injective (by simp [counterPlus, h]) ?_
  rw [beNat_incr, counterPlus, beNat_beBytes, h, show (256 : Nat) ^ 16 = 2 ^ 128 from by norm_num, Nat.mod_mod]

/-! ## A legal packet is the encoding of its command (R60 to R64) -/

theorem beBytes_headerWord (p : Bytes) (h : 8 ≤ p.length) : beBytes 8 (headerWord p).toNat = p.take 8 := by
  have h8 : (p.take 8).length = 8 := by simp [h]
  rw [headerWord_toNat]
  simpa [h8] using beBytes_beNat (p.take 8)

/-- A header whose `RSV` is zero is built from its other fields (R61). -/
theorem buildHeader_fields (h : BitVec 64) (hr : hdrRsv h = 0) :
    buildHeader (hdrOp h) (hdrAlen h).toNat (hdrBlen h).toNat (hdrLen h) = h := by
  conv_rhs => rw [header_eq_append h, hr]
  simp [buildHeader]

/-- The operand bytes of a legal packet are all its bytes after the header (R60, R64). -/
theorem operands_assembleOperands {p : Bytes} {m : Mnemonic} (hw : wholePacket p)
    (hm : decodeHeader (headerWord p) = some m) : (assembleOperands m p).operands = p.drop 8 := by
  have hl : p.length = 8 + (hdrAlen (headerWord p)).toNat + (hdrBlen (headerWord p)).toNat := whole_length hw
  rw [decodeHeader_fields] at hm
  split_ifs at hm with h1 h2 h3 <;> cases hm
  · rw [assembleOperands, Instr.operands, List.take_of_length_le (l := p.drop (8 + _)) (by rw [List.length_drop]; omega),
      ← List.drop_drop, List.take_append_drop]
  · obtain ⟨-, ha, hb, -⟩ := h2
    exact (List.drop_of_length_le (by simp [hl, ha, hb])).symm
  · obtain ⟨-, hb, -⟩ := h3
    exact List.take_of_length_le (by simp [hl, hb])

/-- The header of a legal packet's command is the packet's (R61, R62). -/
theorem header_assembleOperands {p : Bytes} {m : Mnemonic} (hw : wholePacket p)
    (hm : decodeHeader (headerWord p) = some m) : (assembleOperands m p).header = headerWord p := by
  have hl : p.length = 8 + (hdrAlen (headerWord p)).toNat + (hdrBlen (headerWord p)).toNat := whole_length hw
  have hA : ((p.drop 8).take (hdrAlen (headerWord p)).toNat).length = (hdrAlen (headerWord p)).toNat := by
    rw [List.length_take, List.length_drop]; omega
  have hB : ((p.drop (8 + (hdrAlen (headerWord p)).toNat)).take (hdrBlen (headerWord p)).toNat).length =
      (hdrBlen (headerWord p)).toNat := by
    rw [List.length_take, List.length_drop]; omega
  have hbuild := buildHeader_fields (headerWord p)
  rw [decodeHeader_fields] at hm
  split_ifs at hm with h1 h2 h3 <;> cases hm
  · obtain ⟨ho, hr, hlen⟩ := h1
    rw [assembleOperands, Instr.header, hA, hB]
    simpa [ho, hlen] using hbuild hr
  · obtain ⟨ho, ha, hb, hr⟩ := h2
    simpa [assembleOperands, Instr.header, ho, ha, hb] using hbuild hr
  · obtain ⟨ho, hb, hr⟩ := h3
    rw [assembleOperands, Instr.header, hA]
    simpa [ho, hb] using hbuild hr

/-- What decodes to a command is that command's packet. -/
theorem encode_of_decode {p : Bytes} {i : Instr} (h : decode p = .ok i) : encode i = p := by
  obtain ⟨hw, m, hm, rfl⟩ := wholePacket_of_decode h
  rw [encode, header_assembleOperands hw hm, operands_assembleOperands hw hm, beBytes_headerWord p (whole_long hw),
    List.take_append_drop]

end Sys2Proof.Machine
end

section
/-! What a step writes of the generator state and of the provided data (R10, R11, R14, R18, R19). -/

namespace Sys2Proof.Machine

variable {E : Cipher} {s t : State}

/-! ## The writers of `KEY`, `V` and `INST` -/

/-- The zero seed with no generator state (R26, R100 step 1). -/
def Generator.zero (ks : KeySize) : Generator := { key := zeros ks.bytes, v := zeros 16, inst := false }

@[simp] theorem Generator.zero_inst (ks : KeySize) : (Generator.zero ks).inst = false := rfl

theorem generator_eq_iff {g : Generator} : s.generator = g ↔ s.key = g.key ∧ s.v = g.v ∧ s.inst = g.inst := by
  cases g; simp [State.generator]

/-- The environment writes registers by reset only (R129, R175). -/
theorem envMove_registers (s : State) (m : EnvMove) :
    (∃ b, m = .reset b ∧ (s.envMove m).generator = Generator.zero s.ks) ∨
    ((s.envMove m).generator = s.generator ∧
      (s.envMove m).pd = s.pd ∧ (s.envMove m).pdv = s.pdv ∧ (s.envMove m).lenr = s.lenr) := by
  cases m with
  | reset held => exact .inl ⟨held, rfl, rfl⟩
  | pause => exact .inr ⟨rfl, rfl, rfl, rfl⟩
  | offer bytes => exact .inr ⟨rfl, rfl, rfl, rfl⟩
  | setReady c b => cases c <;> exact .inr ⟨rfl, rfl, rfl, rfl⟩
  | readStatus => exact .inr ⟨rfl, rfl, rfl, rfl⟩
  | releaseReset => exact .inr ⟨rfl, rfl, rfl, rfl⟩

/-- Acceptance writes the generator state for an INSTANTIATE with both operands of `SEED` bytes only (R14, R100). -/
theorem acceptCommand_generator (h : acceptCommand s = .next t) :
    t.generator = s.generator ∨
    (t.phase = .fill ∧ t.stage = .inst ∧ t.generator = Generator.zero s.ks ∧
      ∃ ent pers : Bytes, ent.length = s.ks.seed ∧ pers.length = s.ks.seed ∧
        s.cmd = encode (.instantiate ent pers) ++ t.cmd) := by
  rcases acceptCommand_next h with
    rfl | ⟨-, rfl⟩ |
    ⟨p, rest, -, hf, ⟨c, rfl⟩ | ⟨ent, pers, hd, he, hp, rfl⟩ | ⟨len, -, -, rfl⟩ | ⟨len, add, -, -, -, rfl⟩⟩
  case inr.inr.inr.inl =>
    exact .inr ⟨rfl, rfl, rfl, ent, pers, he, hp, by rw [encode_of_decode hd]; exact (wholePacket_of_frame hf).2⟩
  all_goals exact .inl rfl

/-- Besides acceptance, the micro-steps that write the generator state are INC and MIX (R118, R122). -/
theorem microStep_generator (h : microStep E (acceptCommand s) s = .next t) :
    t.generator = s.generator ∨ (s.phase = .idle ∧ acceptCommand s = .next t) ∨
    (s.phase = .inc ∧ t.generator = { s.generator with v := incr s.v }) ∨
    (s.phase = .mix ∧ t.generator =
      { key := s.mixSplit.key, v := s.mixSplit.v, inst := if s.stage = .inst then true else s.inst }) := by
  rcases microStep_cases h with
    hidle | ⟨-, -, rfl⟩ | ⟨-, -, -, rfl⟩ | ⟨-, -, -, rfl⟩ | ⟨hp, rfl⟩ | ⟨-, -, rfl⟩ | ⟨-, -, rfl⟩ | ⟨-, -, rfl⟩ |
    ⟨q, -, -, -, -, rfl⟩ | ⟨q, -, -, -, -, rfl⟩ | ⟨-, -, rfl⟩ | ⟨-, -, rfl⟩ |
    ⟨hp, hs, rfl⟩ | ⟨hp, hs, rfl⟩ | ⟨hp, hs, rfl⟩ | ⟨-, -, rfl⟩ | ⟨-, -, rfl⟩
  · exact .inr (.inl hidle)
  -- FILL
  iterate 3 exact .inl rfl
  · exact .inr (.inr (.inl ⟨hp, rfl⟩))
  -- REQ, WAIT, EMIT
  iterate 7 exact .inl rfl
  iterate 3 exact .inr (.inr (.inr ⟨hp, by simp [State.generator, hs]⟩))
  -- RESP
  iterate 2 exact .inl rfl

/-- What a step can do to the generator state: nothing, a reset, an INSTANTIATE accepted, INC or MIX. -/
theorem stepWith_generator (h : stepWith E s = .next t) :
    t.generator = s.generator ∨
    ((∃ b ms, s.moves = .env (.reset b) :: ms) ∧ t.generator = Generator.zero s.ks) ∨
    (s.phase = .idle ∧ t.phase = .fill ∧ t.stage = .inst ∧ t.generator = Generator.zero s.ks ∧
      ∃ ent pers : Bytes, ent.length = s.ks.seed ∧ pers.length = s.ks.seed ∧
        s.cmd = encode (.instantiate ent pers) ++ t.cmd) ∨
    (s.phase = .inc ∧ t.generator = { s.generator with v := incr s.v }) ∨
    (s.phase = .mix ∧ t.generator =
      { key := s.mixSplit.key, v := s.mixSplit.v, inst := if s.stage = .inst then true else s.inst }) := by
  rcases stepWith_cases h with ⟨m, ms, hms, rfl⟩ | ⟨-, -, hm⟩
  · rcases envMove_registers { s with moves := ms } m with ⟨b, rfl, hg⟩ | ⟨hg, -⟩
    · exact .inr (.inl ⟨⟨b, ms, hms⟩, hg⟩)
    · exact .inl hg
  · rcases microStep_generator hm with hg | ⟨hp, ha⟩ | hinc | hmix
    · exact .inl hg
    · rcases acceptCommand_generator ha with hg | hg
      · exact .inl hg
      · exact .inr (.inr (.inl ⟨hp, hg⟩))
    · exact .inr (.inr (.inr (.inl hinc)))
    · exact .inr (.inr (.inr (.inr hmix)))

/-- The split of MIX (R98, R122) cuts the mixed scratch into `KEY` and `V` with nothing left over. -/
theorem mixSplit_eq_take_drop (hI : s.Inv) :
    s.mixSplit.key = (if s.pdv = true then List.zipWith (· ^^^ ·) s.temp s.pd else s.temp).take s.ks.bytes ∧
    s.mixSplit.v = (if s.pdv = true then List.zipWith (· ^^^ ·) s.temp s.pd else s.temp).drop s.ks.bytes := by
  obtain ⟨⟨-, -, hpd, htemp, -⟩, -⟩ := hI
  have hlen := length_mixed htemp hpd
  refine ⟨rfl, ?_⟩
  rw [mixSplit_v, memRead, List.take_of_length_le (by rw [List.length_drop, hlen, seed_eq]; omega)]
  rfl

/-- Settles O48: the writers of the generator state, with the values they write. -/
theorem keyAndCounterAreWrittenOnlySo : Obligations.KeyAndCounterAreWrittenOnlySo := by
  intro E s t hI h mixed
  obtain ⟨hmk, hmv⟩ := mixSplit_eq_take_drop hI
  rcases stepWith_generator h with hg | ⟨⟨b, ms, hms⟩, hg⟩ | ⟨hp, htp, hts, hg, -⟩ | ⟨hp, hg⟩ | ⟨hp, hg⟩ <;>
    obtain ⟨hk, hv, -⟩ := generator_eq_iff.1 hg
  · exact ⟨fun hne => absurd hk hne, fun hne => absurd hv hne⟩
  · exact ⟨fun _ => .inl ⟨b, ms, hms, hk⟩, fun _ => .inl ⟨b, ms, hms, hv⟩⟩
  · exact ⟨fun _ => .inr (.inl ⟨hp, htp, hts, hk⟩), fun _ => .inr (.inl ⟨hp, htp, hts, hv⟩)⟩
  · exact ⟨fun hne => absurd hk hne, fun _ => .inr (.inr (.inl ⟨hp, hv.trans (incr_eq_counterPlus_one s.v hI.1.2.1)⟩))⟩
  · exact ⟨fun _ => .inr (.inr ⟨hp, hk.trans hmk⟩), fun _ => .inr (.inr (.inr ⟨hp, hv.trans hmv⟩))⟩

/-- In stage `S_INST` of a command there is provided data and no generator state (R124). -/
theorem inst_stage_of_inv (hI : s.Inv) (hp : s.phase = .mix) (hs : s.stage = .inst) : s.inst = false ∧ s.pdv = true := by
  obtain ⟨⟨-, ⟨-, hst, -⟩, -⟩, -⟩ := (inv_iff s).1 hI
  obtain ⟨hinst, hpdv, -⟩ := (hst (by simp [hp]) (by simp [hp])).1 hs
  exact ⟨hinst, hpdv⟩

/-- Settles O49: of the writers of the generator state, reset and INSTANTIATE clear INST and MIX of S_INST sets it. -/
theorem instantiatedFlagChangesOnlySo : Obligations.InstantiatedFlagChangesOnlySo := by
  intro E s t hI h
  obtain ⟨hmk, hmv⟩ := mixSplit_eq_take_drop hI
  have unchanged {P Q : Prop} (hi : t.inst = s.inst) :
      (s.inst = true → t.inst = false → P) ∧ (s.inst = false → t.inst = true → Q) := by
    rw [hi]; exact ⟨fun h1 h0 => by simp [h1] at h0, fun h0 h1 => by simp [h0] at h1⟩
  rcases stepWith_generator h with hg | ⟨hms, hg⟩ | ⟨hp, -, -, hg, hcmd⟩ | ⟨-, hg⟩ | ⟨hp, hg⟩ <;>
    obtain ⟨hk, hv, hi⟩ := generator_eq_iff.1 hg
  · exact unchanged hi
  · exact ⟨fun _ _ => .inl hms, fun _ h1 => by simp [hi] at h1⟩
  · exact ⟨fun _ _ => .inr ⟨hp, hcmd⟩, fun _ h1 => by simp [hi] at h1⟩
  · exact unchanged hi
  · refine ⟨fun h1 h0 => by simp [hi, h1] at h0, fun h0 h1 => ?_⟩
    have hs : s.stage = .inst := by by_contra hs; simp [hi, hs, h0] at h1
    obtain ⟨-, hpdv⟩ := inst_stage_of_inv hI hp hs
    refine ⟨hp, hs, ?_⟩
    rw [hk, hv, hmk, hmv, if_pos hpdv, List.take_append_drop]

/-! ## The provided data of a command in progress -/

/-- Only acceptance and the response write `PD`, `PDV` and `LENR` (R116, R123). -/
theorem microStep_provided (hidle : s.phase ≠ .idle) (hresp : s.phase ≠ .resp)
    (h : microStep E (acceptCommand s) s = .next t) : t.pd = s.pd ∧ t.pdv = s.pdv ∧ t.lenr = s.lenr := by
  rcases microStep_cases h with
    ⟨hp, -⟩ | ⟨-, -, rfl⟩ | ⟨-, -, -, rfl⟩ | ⟨-, -, -, rfl⟩ | ⟨-, rfl⟩ | ⟨-, -, rfl⟩ | ⟨-, -, rfl⟩ | ⟨-, -, rfl⟩ |
    ⟨q, -, -, -, -, rfl⟩ | ⟨q, -, -, -, -, rfl⟩ | ⟨-, -, rfl⟩ | ⟨-, -, rfl⟩ |
    ⟨-, -, rfl⟩ | ⟨-, -, rfl⟩ | ⟨-, -, rfl⟩ | ⟨hp, -⟩ | ⟨hp, -⟩
  · exact absurd hp hidle
  iterate 14 exact ⟨rfl, rfl, rfl⟩
  iterate 2 exact absurd hp hresp

/-- Settles O50: neither the micro-steps between acceptance and response nor the environment, reset apart, write them. -/
theorem providedDataIsHeldForTheCommand : Obligations.ProvidedDataIsHeldForTheCommand := by
  intro E s t _ hidle hresp h
  rcases stepWith_cases h with ⟨m, ms, hms, rfl⟩ | ⟨-, -, hm⟩
  · rcases envMove_registers { s with moves := ms } m with ⟨b, rfl, -⟩ | ⟨-, hkept⟩
    · exact .inl ⟨b, ms, hms⟩
    · exact .inr hkept
  · exact .inr (microStep_provided (s := s.turnTaken) hidle hresp hm)

end Sys2Proof.Machine
end

section
/-! What the host sees of a step (R32, R150): a function of registers other than `KEY`, `V`, `TEMP` and `PD`. -/

namespace Sys2Proof.Machine

variable {E : Cipher} {s t : State}

/-- What the host sees of a turn of the sequencer: a packet taken in `IDLE`, a beat in `EMIT`, a response in `RESP`. -/
def State.turnShows (s : State) : List Event :=
  match s.phase with
  | .idle => if s.rstI = .inactive then ((frame s.cmd).map fun pr => .cmd pr.1).toList else []
  | .emit => if s.outReady then [.out s.beat] else []
  | .resp => if s.rspReady then [.rsp s.response] else []
  | .fill | .inc | .req | .wait | .mix => []

/-- What the host sees of a move of the environment: its own reading of the status wires, and a reset. -/
def State.moveShows (s : State) : EnvMove → List Event
  | .readStatus => [.status s.instO s.idleO]
  | .reset _ => [.rst]
  | .pause | .offer _ | .setReady _ _ | .releaseReset => []

/-- What the host sees of the next step. -/
def State.shows (s : State) : List Event :=
  match s.moves with
  | .env m :: _ => s.moveShows m
  | _ => s.turnShows

@[simp] theorem hostEvents_append (a b : List Event) : hostEvents (a ++ b) = hostEvents a ++ hostEvents b :=
  List.filter_append ..

theorem exec_trace {i : Instr} (h : exec i s = .next t) : t.trace = s.trace := by
  rcases exec_cases i s with ⟨_, _, -, -, -, hx⟩ | ⟨_, -, -, hx⟩ | ⟨_, _, -, -, -, hx⟩ | ⟨_, hx, -⟩ <;>
    rw [hx] at h <;> cases h <;> rfl

theorem acceptCommand_shows (hp : s.phase = .idle) (h : acceptCommand s = .next t) :
    hostEvents t.trace = hostEvents s.trace ++ s.turnShows := by
  unfold State.turnShows
  rw [hp]
  cases hr : s.rstI with
  | asserted => rw [acceptCommand_asserted hr] at h; cases h; simp
  | released => rw [acceptCommand_released hr] at h; cases h; simp
  | inactive =>
    rcases acceptCommand_cases hr with ⟨hf, ha⟩ | ⟨p, rest, why, hf, -, ha⟩ | ⟨p, rest, i, hf, -, ha⟩ <;> rw [ha] at h
    · cases h; simp [hf]
    · cases h; simp [hf, hostEvents]
    · rw [exec_trace h]; simp [hf, hostEvents]

/-- The record grows by what the sequencer's turn shows, and by exchanges with the cipher, which the host does not see. -/
theorem microStep_shows (h : microStep E (acceptCommand s) s = .next t) :
    hostEvents t.trace = hostEvents s.trace ++ s.turnShows := by
  rcases microStep_cases h with
    ⟨hp, ha⟩ | ⟨hp, -, rfl⟩ | ⟨hp, -, -, rfl⟩ | ⟨hp, -, -, rfl⟩ | ⟨hp, rfl⟩ | ⟨hp, -, rfl⟩ | ⟨hp, -, rfl⟩ | ⟨hp, -, rfl⟩ |
    ⟨q, hp, -, -, -, rfl⟩ | ⟨q, hp, -, -, -, rfl⟩ | ⟨hp, hready, rfl⟩ | ⟨hp, hready, rfl⟩ |
    ⟨hp, -, rfl⟩ | ⟨hp, -, rfl⟩ | ⟨hp, -, rfl⟩ | ⟨hp, hready, rfl⟩ | ⟨hp, hready, rfl⟩
  · exact acceptCommand_shows hp ha
  -- FILL, INC, REQ, WAIT
  iterate 9 simp [State.turnShows, hp, hostEvents]
  -- EMIT
  iterate 2 simp [State.turnShows, hp, hready, hostEvents]
  -- MIX
  iterate 3 simp [State.turnShows, hp]
  -- RESP
  iterate 2 simp [State.turnShows, hp, hready, hostEvents, State.response]

theorem envMove_shows (m : EnvMove) : hostEvents (s.envMove m).trace = hostEvents s.trace ++ s.moveShows m := by
  cases m with
  | readStatus => exact hostEvents_append s.trace [_]
  | reset held => exact hostEvents_append s.trace [_]
  | setReady c b => cases c <;> exact (List.append_nil _).symm
  | pause => exact (List.append_nil _).symm
  | offer bytes => exact (List.append_nil _).symm
  | releaseReset => exact (List.append_nil _).symm

theorem stepWith_shows (h : stepWith E s = .next t) : hostEvents t.trace = hostEvents s.trace ++ s.shows := by
  unfold State.shows
  rcases stepWith_cases h with ⟨m, ms, hms, rfl⟩ | ⟨hturn, -, hm⟩
  · rw [hms]
    exact envMove_shows m
  · have hshow := microStep_shows hm
    unfold State.sequencersTurn at hturn
    split
    next m ms hms => simp [hms] at hturn
    next => exact hshow

/-- Settles O56: none of `KEY`, `V`, `TEMP` and `PD`, nor the request in flight, stands in what a step shows the host. -/
theorem hostSeesNoSecretRegister : Obligations.HostSeesNoSecretRegister := by
  intro E s t s' t' key v temp pd _ _ hs' h h'
  have hshows : s'.shows = s.shows := (congrArg State.shows hs').trans rfl
  have htrace : s'.trace = s.trace := (congrArg State.trace hs').trans rfl
  rw [stepWith_shows h, stepWith_shows h', hshows, htrace]

end Sys2Proof.Machine
end

section
/-! A whole packet from an idle block (R125): the micro-steps from its CMD transfer to its RSP transfer end in
`State.afterPacket`. -/

namespace Sys2Proof.Machine

variable {E : Cipher} {s t : State} {p rest : Bytes}

/-- The idle invariant (R27) as equations between registers. -/
theorem idle_of_inv (hI : s.Inv) (hp : s.phase = .idle) :
    s.rem = 0 ∧ s.lenr = 0 ∧ s.pd = zeros s.ks.seed ∧ s.pdv = false ∧ s.temp = zeros s.ks.seed ∧ s.rcode = codeOk := by
  have h := ((inv_iff s).1 hI).1.2.1.1
  rw [hp] at h
  obtain ⟨hrem, hlenr, hpd, hpdv, htemp, -, hrcode⟩ := h
  exact ⟨hrem, hlenr, hpd, hpdv, htemp, hrcode⟩

/-- The state in which an idle block ends a command with effect `e` and stage `st` (R27, R125). -/
abbrev State.afterEffect (s : State) (E : Cipher) (p rest : Bytes) (e : Effect) (st : Stage) : State :=
  { s with
    key := e.gen.key, v := e.gen.v, inst := e.gen.inst, stage := st, cmd := rest,
    trace := s.trace ++ .cmd p :: e.events E }

/-- Acceptance is the first micro-step of a run. -/
theorem run_accepted {u : State} (n : Nat) (hr : s.readyForCommand) (ha : acceptCommand s = .next u) :
    u.Inv ∧ runWith E (n + 1) s = runWith E n u := by
  obtain ⟨hI, hp, -, hc⟩ := hr
  exact runWith_micro n hI hc.2.2.2.2 ((by simp [microStep, hp] : microStep E _ s = _).trans ha)

/-- A packet in error (R144, R146): two micro-steps, and every register is as before. -/
theorem run_refused (c : ErrorCause) (hr : s.readyForCommand)
    (ha : acceptCommand s = .next ((s.taken p rest).raiseError c)) :
    runWith E 2 s = .next (s.afterEffect E p rest (refuseCommand s.generator c) s.stage) := by
  obtain ⟨i1, r1⟩ := run_accepted (E := E) 1 hr ha
  obtain ⟨hI, hp, -, hc⟩ := hr
  obtain ⟨-, hlenr, hpd, hpdv, -, hrcode⟩ := idle_of_inv hI hp
  rw [r1, (runWith_micro (E := E) 0 i1 hc.2.2.2.2
    (microStep_resp (s := (s.taken p rest).raiseError c) rfl hc.2.1 _)).2, runWith]
  simp [State.deliverResponse, State.raiseError, State.note, refuseCommand, State.generator, Effect.events, hp, hlenr,
    hpd, hpdv, hrcode]

/-- INSTANTIATE (R100): acceptance, then its one Update. -/
theorem run_instantiate (ent pers : Bytes) (hr : s.readyForCommand) (he : ent.length = s.ks.seed)
    (hpl : pers.length = s.ks.seed)
    (ha : acceptCommand s = .next ((s.taken p rest).acceptedInstantiate ent pers)) :
    runWith E (4 * s.ks.nu + 4) s =
      .next (s.afterEffect E p rest (cmdInstantiate s.ks E ent pers s.generator) .inst) := by
  obtain ⟨i1, r1⟩ := run_accepted (E := E) (4 * s.ks.nu + 3) hr ha
  obtain ⟨hI, hp, -, hc⟩ := hr
  obtain ⟨hrem, hlenr, hpd, hpdv, htemp, hrcode⟩ := idle_of_inv hI hp
  have r2 := run_lastUpdate (E := E) 0 i1 hc rfl (.inl rfl) rfl
  rw [Nat.zero_add] at r2
  rw [r1]
  refine r2.trans ?_
  simp [runWith, State.deliverResponse, State.note, cmdInstantiate, seedSized, he, hpl, State.provided, Effect.events, hp,
    hrem, hlenr, hpd, hpdv, htemp, hrcode]

/-- GENERATE (R105): acceptance, then the output and the Update after it. -/
theorem run_generate (len : BitVec 32) (hr : s.readyForCommand) (hi : s.inst = true)
    (ha : acceptCommand s = .next ((s.taken p rest).acceptedGenerate len)) :
    runWith E (5 * ((len.toNat + 15) / 16) + 4 * s.ks.nu + 5) s =
      .next (s.afterEffect E p rest (cmdGenerate s.ks E len s.generator) .post) := by
  obtain ⟨i1, r1⟩ := run_accepted (E := E) (5 * ((len.toNat + 15) / 16) + 4 * s.ks.nu + 4) hr ha
  obtain ⟨hI, hp, -, hc⟩ := hr
  obtain ⟨hrem, hlenr, hpd, hpdv, htemp, hrcode⟩ := idle_of_inv hI hp
  have r2 := run_outputAndRekey (E := E) 0 i1 hc rfl rfl
  rw [Nat.zero_add] at r2
  rw [r1]
  refine r2.trans ?_
  simp [runWith, State.deliverResponse, State.note, cmdGenerate, generateProcedure, outputAndRekey, State.provided,
    State.generator, fillTransfers, Effect.events, hp, hi, hrem, hlenr, hpd, hpdv, htemp, hrcode]

/-- GENERATE_AI (R106): acceptance, the Update before the output, then as GENERATE. -/
theorem run_generateAi (len : BitVec 32) (add : Bytes) (hr : s.readyForCommand) (hi : s.inst = true)
    (hl : add.length = s.ks.seed)
    (ha : acceptCommand s = .next ((s.taken p rest).acceptedGenerateAi len add)) :
    runWith E (5 * ((len.toNat + 15) / 16) + 8 * s.ks.nu + 7) s =
      .next (s.afterEffect E p rest (cmdGenerateAi s.ks E len add s.generator) .post) := by
  obtain ⟨i1, r1⟩ := run_accepted (E := E) (5 * ((len.toNat + 15) / 16) + 4 * s.ks.nu + 4 + (4 * s.ks.nu + 2)) hr ha
  obtain ⟨hI, hp, -, hc⟩ := hr
  obtain ⟨hrem, hlenr, hpd, hpdv, htemp, hrcode⟩ := idle_of_inv hI hp
  obtain ⟨i2, r2⟩ := run_preUpdate (E := E) (5 * ((len.toNat + 15) / 16) + 4 * s.ks.nu + 4) i1 hc rfl rfl rfl
  have r3 := run_outputAndRekey (E := E) 0 i2 hc rfl rfl
  rw [Nat.zero_add] at r3
  rw [show 5 * ((len.toNat + 15) / 16) + 8 * s.ks.nu + 7 =
    5 * ((len.toNat + 15) / 16) + 4 * s.ks.nu + 4 + (4 * s.ks.nu + 2) + 1 by ring, r1]
  refine (r2.trans r3).trans ?_
  simp [runWith, State.deliverResponse, State.note, cmdGenerateAi, generateProcedure, outputAndRekey, State.provided,
    State.generator, fillTransfers, Effect.events, hp, hi, hl, seedSized, hrem, hlenr, hpd, hpdv, htemp, hrcode]

/-! ## The packet, whatever it holds -/

theorem cmdInstantiate_code (ks : KeySize) (ent pers : Bytes) (g : Generator) (he : ent.length = ks.seed)
    (hpl : pers.length = ks.seed) : (cmdInstantiate ks E ent pers g).code = codeOk := by
  simp [cmdInstantiate, seedSized, he, hpl]

theorem cmdGenerate_code (ks : KeySize) (len : BitVec 32) (g : Generator) (hi : g.inst = true) :
    (cmdGenerate ks E len g).code = codeOk := by
  simp [cmdGenerate, hi, generateProcedure, outputAndRekey]

theorem cmdGenerateAi_code (ks : KeySize) (len : BitVec 32) (add : Bytes) (g : Generator) (hi : g.inst = true)
    (hl : add.length = ks.seed) : (cmdGenerateAi ks E len add g).code = codeOk := by
  simp [cmdGenerateAi, hi, seedSized, hl, generateProcedure, outputAndRekey]

/-- A packet that decodes to an accepted command takes the steps of R126 and leaves the stage of R122. -/
theorem runWith_of_accepted {i : Instr} (hd : decode p = .ok i) (hcode : (commandEffect s.ks E i s.generator).code = codeOk)
    (hrun : runWith E (commandSteps s.ks i) s =
      .next (s.afterEffect E p rest (commandEffect s.ks E i s.generator) (stageLeft i))) :
    runWith E (packetSteps s.ks E p s.generator) s = .next (s.afterPacket E p rest) := by
  simpa only [packetSteps, packetStage, State.afterPacket, packetEffect, hd, hcode, if_true] using hrun

/-- The sequencer refines the command level (R125): from an idle block a whole packet, legal or not, ends in the state
`afterPacket` after the micro-steps of R126. -/
theorem runWith_packet (hr : s.readyForCommand) (hw : wholePacket p) (hcmd : s.cmd = p ++ rest) :
    runWith E (packetSteps s.ks E p s.generator) s = .next (s.afterPacket E p rest) := by
  have hframe : frame s.cmd = some (p, rest) := by rw [hcmd]; exact frame_of_wholePacket hw rest
  have hrst : s.rstI = .inactive := hr.2.2.1
  rcases acceptCommand_cases hrst with ⟨hf, -⟩ | ⟨p', rest', why, hf, hd, ha⟩ | ⟨p', rest', i, hf, hd, ha⟩ <;>
    rw [hframe] at hf <;> cases hf
  · simpa only [packetSteps, packetStage, State.afterPacket, packetEffect, hd] using run_refused (E := E) _ hr ha
  · rcases exec_cases i (s.taken p rest) with
      ⟨ent, pers, rfl, he, hp, hx⟩ | ⟨len, rfl, hi, hx⟩ | ⟨len, add, rfl, hi, hl, hx⟩ | ⟨c, hx, heff⟩ <;>
      replace ha := ha.trans hx
    · exact runWith_of_accepted hd (cmdInstantiate_code s.ks ent pers _ he hp) (run_instantiate ent pers hr he hp ha)
    · exact runWith_of_accepted hd (cmdGenerate_code s.ks len _ hi) (run_generate len hr hi ha)
    · exact runWith_of_accepted hd (cmdGenerateAi_code s.ks len add _ hi hl) (run_generateAi len add hr hi hl ha)
    · have hcode : (refuseCommand s.generator c).code ≠ codeOk := errorCode_ne_ok c
      have heff : commandEffect s.ks E i s.generator = refuseCommand s.generator c := heff E
      simpa only [packetSteps, packetStage, State.afterPacket, packetEffect, hd, heff, if_neg hcode] using
        run_refused (E := E) c hr ha

theorem afterPacket_generator :
    (s.afterPacket E p rest).generator = (packetEffect s.ks E p s.generator).gen := rfl

/-- Settles O32: the number of steps, the generator state and the transfers are those of `afterPacket`, whose effect is a
function of the key size, the packet and the generator state. -/
theorem commandsDependOnTheGeneratorStateAlone : Obligations.CommandsDependOnTheGeneratorStateAlone := by
  intro E s1 s2 p rest1 rest2 h1 h2 hks hg hw hc1 hc2
  have r1 := runWith_packet (E := E) h1 hw hc1
  have r2 := runWith_packet (E := E) h2 hw hc2
  rw [← hks, ← hg] at r2
  refine ⟨_, _, _, .cmd p :: (packetEffect s1.ks E p s1.generator).events E, r1, r2, h1.2.1, h2.2.1, rfl, rfl, ?_, rfl, ?_⟩
  · rw [afterPacket_generator, afterPacket_generator, hks, hg]
  · rw [hks, hg]; rfl

end Sys2Proof.Machine
end

section
/-! The spaces of the block (20_memory.md R31, R38, R40, R56): byte strings on wires, beats, and the bounds of the scratch
and of the output. -/

namespace Sys2Proof.Machine

variable {E : Cipher} {s t : State}

/-! ## Byte strings on wires (R40) -/

theorem getElem_beBytes (n k i : Nat) (h : i < (beBytes n k).length) :
    (beBytes n k)[i] = BitVec.ofNat 8 (k / 256 ^ (n - 1 - i)) := by
  simp [beBytes]

/-- The number on the wires is the big-endian number of the bytes: it fits, so no byte is cut off (R40). -/
theorem wires_toNat (s : Bytes) : (wires s).toNat = beNat s := by
  have h := beNat_lt s
  rw [show (256 : Nat) = 2 ^ 8 from rfl, ← pow_mul] at h
  rw [wires, BitVec.toNat_ofNat, Nat.mod_eq_of_lt h]

/-- Settles O14: byte `i` of a string is digit `i` of its number in base 256, most significant first. -/
theorem byteStringsOnWires : Obligations.ByteStringsOnWires := by
  intro s i h
  have hdigit : s[i] = BitVec.ofNat 8 (beNat s / 256 ^ (s.length - 1 - i)) := by
    rw [← getElem_beBytes s.length (beNat s) i (by simpa using h)]
    simp only [beBytes_beNat]
  rw [hdigit, ← BitVec.toNat_inj, BitVec.extractLsb'_toNat, wires_toNat, Nat.shiftRight_eq_div_pow,
    BitVec.toNat_ofNat, show (256 : Nat) = 2 ^ 8 from rfl, ← pow_mul]

/-! ## Beats (R36, R70) -/

@[simp] theorem take_padBlock (b : Bytes) (n : Nat) (h : n ≤ b.length) : (padBlock b n).take n = b.take n :=
  List.take_left' (by simp [h])

@[simp] theorem drop_padBlock (b : Bytes) (n : Nat) (h : n ≤ b.length) : (padBlock b n).drop n = zeros (16 - n) :=
  List.drop_left' (by simp [h])

/-- `NB` counts the valid bytes of a beat: a number up to 16 fits its five bits (R70). -/
theorem toNat_ofNat_nb {n : Nat} (h : n ≤ 16) : (BitVec.ofNat 5 n).toNat = n := by
  rw [BitVec.toNat_ofNat]; omega

theorem beatAt_nb_toNat (dest : Bytes) (k : Nat) : (beatAt dest k).nb.toNat = min 16 (dest.length - 16 * k) :=
  toNat_ofNat_nb (Nat.min_le_left _ _)

/-- Settles O28: beat `k` is the bytes from `16k` on, padded to a block; the arithmetic is of `ceil(LEN/16)`. -/
theorem beatsCutTheOutput : Obligations.BeatsCutTheOutput := by
  intro dest k hk b
  have hnb : b.nb.toNat = min 16 (dest.length - 16 * k) := beatAt_nb_toNat dest k
  have hread : (memRead dest (16 * k) 16).length = b.nb.toNat := by rw [length_memRead, hnb]
  have hdata : b.data = padBlock (memRead dest (16 * k) 16) b.nb.toNat := by rw [hnb]; rfl
  refine ⟨?_, by omega, by omega, ?_, ?_, fun hnext => ?_, ?_⟩
  · rw [hdata, padBlock, List.length_append, List.length_take, hread, length_zeros]; omega
  · rw [hdata, take_padBlock _ _ hread.ge, List.take_of_length_le hread.le]; rfl
  · rw [hdata, drop_padBlock _ _ hread.ge]
  · refine BitVec.eq_of_toNat_eq (hnb.trans ?_)
    simp only [BitVec.ofNat_eq_ofNat, BitVec.toNat_ofNat]
    omega
  · refine decide_eq_true_iff.trans ?_
    omega

/-! ## Bounds (R56) -/

/-- Settles O54: while a fill is not complete, `REM` is not 0 and is at most the length of the fill (R124). -/
theorem writesStayInBounds : Obligations.WritesStayInBounds := by
  intro s hI
  obtain ⟨⟨-, ⟨hphase, -, ⟨hle, -⟩, -⟩, -⟩, -⟩ := (inv_iff s).1 hI
  refine ⟨fun hp hs => ?_, fun hp => ?_⟩
  · rw [hp] at hphase
    rw [State.fillTotal, if_neg hs] at hle
    have hpos := rem_pos hphase
    omega
  · rw [hp] at hphase
    rw [State.fillTotal, if_pos hphase.1] at hle
    have hpos := rem_pos hphase.2
    omega

end Sys2Proof.Machine
end

section
/-! The ports (20_memory.md R33, R34, R37, R45 to R47): what a step transfers, in which state, and what else it does. -/

namespace Sys2Proof.Machine

variable {E : Cipher} {s t : State}

/-! ## The wires the block drives (R33, R160) -/

theorem drives_iff (s : State) (p : Phase) : s.drives p = true ↔ s.rstI = .inactive ∧ s.phase = p := by
  simp [State.drives]

theorem drives_of_inv (hI : s.Inv) {p : Phase} (hp : s.phase = p) (hidle : p ≠ .idle) : s.drives p = true :=
  (drives_iff s p).2 ⟨inactive_of_inv hI (hp ▸ hidle), hp⟩

theorem phase_of_drives {p : Phase} (h : s.drives p = true) : s.phase = p := ((drives_iff s p).1 h).2

/-! ## The transfer of a step -/

/-- What holds of a step from `s` to `t` that notes the event `e`: the block drives the channel of `e` (R33), and this is
what the transfer carries, and what it does to CMD and to a command in progress (R34, R36, R37, R45, R47). The last two
events are no transfers and come from the environment's moves only (R175). -/
def State.transfers (s : State) (E : Cipher) (t : State) : Event → Prop
  | .cmd p => s.cmdReady = true ∧ wholePacket p ∧ s.cmd = p ++ t.cmd ∧ t.phase ≠ .idle
  | .creq q => s.creqValid = true ∧ q = s.request ∧ t.cmd = s.cmd ∧ t.phase ≠ .idle
  | .crsp b => s.crspReady = true ∧ b = (E s.key s.v).toList ∧ t.cmd = s.cmd ∧ t.phase ≠ .idle ∧
      t.generator = s.generator ∧ t.inflight = none
  | .out b => s.outValid = true ∧ b = s.beat ∧ t.cmd = s.cmd ∧ t.phase ≠ .idle
  | .rsp c => s.rspValid = true ∧ c = s.response ∧ t.cmd = s.cmd ∧ t.phase = .idle
  | .status _ _ | .rst => False

/-- The event is a transfer of one of the five channels (R32). -/
def Event.isTransfer : Event → Bool
  | .cmd _ | .creq _ | .crsp _ | .out _ | .rsp _ => true
  | .status _ _ | .rst => false

/-- Who moves next is no part of a transfer. -/
theorem transfers_turnTaken {e : Event} : s.turnTaken.transfers E t e ↔ s.transfers E t e := by
  cases e <;> rfl

/-- In phase `WAIT` the cipher owes the answer to the current (`KEY`, `V`) (R47). -/
theorem inflight_of_inv (hI : s.Inv) (hp : s.phase = .wait) : s.inflight = some s.request := by
  have h := hI.2.2.1
  rwa [State.inflightOk, if_pos hp] at h

/-- Acceptance takes one whole packet and starts or refuses a command, or it touches neither CMD nor the record. -/
theorem acceptCommand_transfers (hp : s.phase = .idle) (h : acceptCommand s = .next t) :
    (t.trace = s.trace ∧ t.cmd = s.cmd ∧ t.phase = .idle) ∨
    ∃ e, t.trace = s.trace ++ [e] ∧ s.transfers E t e := by
  rcases acceptCommand_next h with rfl | ⟨-, rfl⟩ | ⟨p, rest, hr, hf, haccepted⟩
  · exact .inl ⟨rfl, rfl, hp⟩
  · exact .inl ⟨rfl, rfl, hp⟩
  · obtain ⟨hw, hcmd⟩ := wholePacket_of_frame hf
    have hready : s.cmdReady = true := (drives_iff s .idle).2 ⟨hr, hp⟩
    obtain ⟨htrace, hrest, hphase⟩ : t.trace = s.trace ++ [.cmd p] ∧ t.cmd = rest ∧ t.phase ≠ .idle := by
      rcases haccepted with ⟨c, rfl⟩ | ⟨ent, pers, -, -, -, rfl⟩ | ⟨len, -, -, rfl⟩ | ⟨len, add, -, -, -, rfl⟩ <;>
        exact ⟨rfl, rfl, by simp⟩
    exact .inr ⟨.cmd p, htrace, hready, hw, by rw [hrest]; exact hcmd, hphase⟩

/-- A turn of the sequencer makes at most one transfer; without one, it leaves CMD, and a command in progress stays so. -/
theorem microStep_transfers (hI : s.Inv) (h : microStep E (acceptCommand s) s = .next t) :
    (t.trace = s.trace ∧ t.cmd = s.cmd ∧ (t.phase = .idle ↔ s.phase = .idle)) ∨
    ∃ e, t.trace = s.trace ++ [e] ∧ s.transfers E t e := by
  rcases microStep_cases h with
    ⟨hp, ha⟩ | ⟨hp, -, rfl⟩ | ⟨hp, -, -, rfl⟩ | ⟨hp, -, -, rfl⟩ | ⟨hp, rfl⟩ | ⟨hp, -, rfl⟩ | ⟨-, -, rfl⟩ | ⟨-, -, rfl⟩ |
    ⟨q, hp, hq, -, -, rfl⟩ | ⟨q, hp, hq, -, -, rfl⟩ | ⟨hp, -, rfl⟩ | ⟨-, -, rfl⟩ |
    ⟨hp, -, rfl⟩ | ⟨hp, -, rfl⟩ | ⟨hp, -, rfl⟩ | ⟨hp, -, rfl⟩ | ⟨-, -, rfl⟩
  · rcases acceptCommand_transfers hp ha with ⟨htrace, hcmd, hphase⟩ | htransfer
    · exact .inl ⟨htrace, hcmd, by simp [hp, hphase]⟩
    · exact .inr htransfer
  -- FILL, INC
  iterate 4 exact .inl ⟨rfl, rfl, by simp [hp]⟩
  -- REQ
  · exact .inr ⟨_, rfl, drives_of_inv hI hp (by decide), rfl, rfl, by simp⟩
  iterate 2 exact .inl ⟨rfl, rfl, .rfl⟩
  -- WAIT
  iterate 2
    rw [inflight_of_inv hI hp] at hq
    cases hq
    exact .inr ⟨_, rfl, drives_of_inv hI hp (by decide), rfl, rfl, by simp, rfl, rfl⟩
  -- EMIT
  · exact .inr ⟨_, rfl, drives_of_inv hI hp (by decide), rfl, rfl, by simp⟩
  · exact .inl ⟨rfl, rfl, .rfl⟩
  -- MIX
  iterate 3 exact .inl ⟨rfl, rfl, by simp [hp]⟩
  -- RESP
  · exact .inr ⟨_, rfl, drives_of_inv hI hp (by decide), rfl, rfl, rfl⟩
  · exact .inl ⟨rfl, rfl, .rfl⟩

/-- What a move of the environment does at the ports: reset drops the bytes on CMD, an offer adds some, and no other move
touches them; but for reset, none touches `PHASE`, and what a move notes is no transfer (R34, R162, R175). -/
theorem envMove_ports (s : State) (m : EnvMove) :
    (∃ held, m = .reset held ∧ (s.envMove m).cmd = [] ∧ (s.envMove m).trace = s.trace ++ [.rst]) ∨
    ((s.envMove m).phase = s.phase ∧
      ((s.envMove m).cmd = s.cmd ∨ ∃ bytes, m = .offer bytes ∧ (s.envMove m).cmd = s.cmd ++ bytes) ∧
      ((s.envMove m).trace = s.trace ∨ (s.envMove m).trace = s.trace ++ [.status s.instO s.idleO])) := by
  cases m with
  | reset held => exact .inl ⟨held, rfl, rfl, rfl⟩
  | offer bytes => exact .inr ⟨rfl, .inr ⟨bytes, rfl, rfl⟩, .inl rfl⟩
  | pause => exact .inr ⟨rfl, .inl rfl, .inl rfl⟩
  | setReady c b => cases c <;> exact .inr ⟨rfl, .inl rfl, .inl rfl⟩
  | readStatus => exact .inr ⟨rfl, .inl rfl, .inr rfl⟩
  | releaseReset => exact .inr ⟨rfl, .inl rfl, .inl rfl⟩

/-- A transfer is the sequencer's: no move of the environment makes one. -/
theorem stepWith_transfers {e : Event} (hI : s.Inv) (h : stepWith E s = .next t) (ht : t.trace = s.trace ++ [e])
    (he : e.isTransfer = true) : s.transfers E t e := by
  rcases stepWith_cases h with ⟨m, ms, -, rfl⟩ | ⟨-, -, hm⟩
  · rcases envMove_ports { s with moves := ms } m with ⟨held, -, -, hn⟩ | ⟨-, -, hn | hn⟩ <;> rw [hn] at ht
    · cases List.append_cancel_left ht
      cases he
    · exact absurd ht (by simp)
    · cases List.append_cancel_left ht
      cases he
  · rcases microStep_transfers (inv_withMoves hI s.moves.tail) hm with ⟨hn, -⟩ | ⟨e', hn, htransfer⟩ <;> rw [hn] at ht
    · exact absurd ht (by simp)
    · cases List.append_cancel_left ht
      exact transfers_turnTaken.1 htransfer

/-- Settles O53: the answer taken is that of `State.transfers`, and the generator state stays. -/
theorem answersAreOfTheCurrentKeyAndCounter : Obligations.AnswersAreOfTheCurrentKeyAndCounter := by
  intro E s t b hI h ht
  obtain ⟨hready, hb, -, -, hg, hinflight⟩ := stepWith_transfers hI h ht rfl
  obtain ⟨hkey, hv, -⟩ := generator_eq_iff.1 hg
  exact ⟨phase_of_drives hready, hb, hkey, hv, hinflight⟩

/-! ## CMD (R34, R50, R53) -/

/-- Of all transfers only that of a packet changes the bytes on CMD. -/
theorem cmd_of_transfers {e : Event} (h : s.transfers E t e) :
    t.cmd = s.cmd ∨ ∃ p, e = .cmd p ∧ s.cmdReady = true ∧ wholePacket p ∧ s.cmd = p ++ t.cmd := by
  cases e with
  | cmd p => obtain ⟨hready, hw, hcmd, -⟩ := h; exact .inr ⟨p, rfl, hready, hw, hcmd⟩
  | creq q => obtain ⟨-, -, hcmd, -⟩ := h; exact .inl hcmd
  | crsp b => obtain ⟨-, -, hcmd, -⟩ := h; exact .inl hcmd
  | out b => obtain ⟨-, -, hcmd, -⟩ := h; exact .inl hcmd
  | rsp c => obtain ⟨-, -, hcmd, -⟩ := h; exact .inl hcmd
  | status i d => exact h.elim
  | rst => exact h.elim

/-- Settles O51: the sequencer takes a whole packet, in `IDLE`; the environment offers bytes or resets. -/
theorem packetsAreTakenOnlyWhenIdle : Obligations.PacketsAreTakenOnlyWhenIdle := by
  intro E s t hI h hne
  rcases stepWith_cases h with ⟨m, ms, hms, rfl⟩ | ⟨-, -, hm⟩
  · rcases envMove_ports { s with moves := ms } m with
      ⟨held, rfl, hcmd, -⟩ | ⟨-, hcmd | ⟨bytes, rfl, hcmd⟩, -⟩
    · exact .inr (.inr ⟨held, ms, hms, hcmd⟩)
    · exact absurd hcmd hne
    · exact .inr (.inl ⟨bytes, ms, hms, hcmd⟩)
  · rcases microStep_transfers (inv_withMoves hI s.moves.tail) hm with ⟨-, hcmd, -⟩ | ⟨e, htrace, htransfer⟩
    · exact absurd hcmd hne
    · rcases cmd_of_transfers htransfer with hcmd | ⟨p, rfl, hready, hw, hcmd⟩
      · exact absurd hcmd hne
      · obtain ⟨hr, hp⟩ := (drives_iff s.turnTaken .idle).1 hready
        exact .inl ⟨hp, hr, p, hw, hcmd, htrace⟩

/-! ## One response for each packet (R37, R148) -/

@[simp] theorem packetsOf_append (a b : List Event) : packetsOf (a ++ b) = packetsOf a ++ packetsOf b :=
  List.flatMap_append ..

@[simp] theorem responsesOf_append (a b : List Event) : responsesOf (a ++ b) = responsesOf a ++ responsesOf b :=
  List.flatMap_append ..

/-- The responses the block owes: one while a command is in progress (R37). -/
def State.owed (s : State) : Nat := if s.phase = .idle then 0 else 1

theorem owed_idle (h : s.phase = .idle) : s.owed = 0 := if_pos h

theorem owed_busy (h : s.phase ≠ .idle) : s.owed = 1 := if_neg h

theorem owed_congr (h : t.phase = .idle ↔ s.phase = .idle) : t.owed = s.owed := by
  simp only [State.owed, h]

/-- A packet makes one response due, a response settles it, and no other transfer counts. -/
theorem owed_of_transfers {e : Event} (h : s.transfers E t e) :
    (packetsOf [e]).length + s.owed = (responsesOf [e]).length + t.owed := by
  have busy {p : Phase} (hd : s.drives p = true) (hp : p ≠ .idle) : s.owed = 1 :=
    owed_busy (phase_of_drives hd ▸ hp)
  cases e with
  | cmd p =>
    obtain ⟨hready, -, -, ht⟩ := h
    rw [owed_idle (phase_of_drives hready), owed_busy ht]; rfl
  | creq q =>
    obtain ⟨hvalid, -, -, ht⟩ := h
    rw [busy hvalid (by decide), owed_busy ht]; rfl
  | crsp b =>
    obtain ⟨hready, -, -, ht, -⟩ := h
    rw [busy hready (by decide), owed_busy ht]; rfl
  | out b =>
    obtain ⟨hvalid, -, -, ht⟩ := h
    rw [busy hvalid (by decide), owed_busy ht]; rfl
  | rsp c =>
    obtain ⟨hvalid, -, -, ht⟩ := h
    rw [busy hvalid (by decide), owed_idle ht]; rfl
  | status i d => exact h.elim
  | rst => exact h.elim

/-- Settles O52: moves of the environment and turns without a transfer change no count; a transfer keeps the balance. -/
theorem oneResponsePerPacket : Obligations.OneResponsePerPacket := by
  intro E s t hI h hreset
  suffices hbalance : (packetsOf t.trace).length + (responsesOf s.trace).length + s.owed =
      (packetsOf s.trace).length + (responsesOf t.trace).length + t.owed from hbalance
  rcases stepWith_cases h with ⟨m, ms, hms, rfl⟩ | ⟨-, -, hm⟩
  · rcases envMove_ports { s with moves := ms } m with ⟨held, rfl, -⟩ | ⟨hphase, -, htrace⟩
    · exact absurd hms (hreset held ms)
    · have howed : (State.envMove { s with moves := ms } m).owed = s.owed := owed_congr (by rw [hphase])
      rcases htrace with htrace | htrace <;> simp [htrace, howed, packetsOf, responsesOf]
  · rcases microStep_transfers (inv_withMoves hI s.moves.tail) hm with ⟨htrace, -, hphase⟩ | ⟨e, htrace, htransfer⟩
    · rw [htrace, owed_congr hphase]; rfl
    · have howed : (packetsOf [e]).length + s.owed = (responsesOf [e]).length + t.owed := owed_of_transfers htransfer
      simp only [htrace, packetsOf_append, responsesOf_append, List.length_append]
      omega

/-! ## The wires through reset (R33, R160) -/

/-- While `rst_i` is asserted, and at its release, the registers hold their reset values (R26, R160). -/
theorem reset_of_inv (hI : s.Inv) (hr : s.rstI ≠ .inactive) :
    s.phase = .idle ∧ s.stage = .inst ∧ s.inst = false ∧ s.key = zeros s.ks.bytes ∧ s.v = zeros 16 :=
  ((inv_iff s).1 hI).2.resolve_left hr

theorem drives_eq_false (hr : s.rstI ≠ .inactive) (p : Phase) : s.drives p = false := by
  simp [State.drives, hr]

/-- The block's turn at the moment of release ends it (R160). -/
theorem stepWith_released (hI : s.Inv) (hr : s.rstI = .released) (hturn : s.sequencersTurn) :
    stepWith E s = .next { s with moves := s.moves.tail, rstI := .inactive } := by
  obtain ⟨hp, -⟩ := reset_of_inv hI (by simp [hr])
  have hplaced : s.turnTaken.placed = true := Inv.placed hI
  rw [stepWith_of_sequencersTurn hturn, sequencerStep_of_placed hplaced, ← acceptCommand_released (s := s.turnTaken) hr]
  simp only [microStep, hp]

/-- Settles O60: a wire is driven out of reset and in its phase only, and a transfer needs its wire driven. -/
theorem wiresAreDrivenInTheirPhaseAndNeverInReset : Obligations.WiresAreDrivenInTheirPhaseAndNeverInReset := by
  intro E s hI
  refine ⟨fun hr => ?_, fun hr => ?_, fun hr ms hms => ?_, stepWith_released hI, fun t h => ?_⟩
  · have hne : s.rstI ≠ .inactive := by rcases hr with hr | hr <;> simp [hr]
    have low := drives_eq_false hne
    obtain ⟨hp, hstage, hinst, hkey, hv⟩ := reset_of_inv hI hne
    obtain ⟨hrem, hlenr, hpd, hpdv, htemp, hrcode⟩ := idle_of_inv hI hp
    have hblkr : s.blkr = zeros 16 := hI.2.2.2.1 (by simp [hp])
    exact ⟨low .idle, low .emit, low .resp, low .req, low .wait, hinst, by simp [State.idleO, hp],
      hkey, hv, hinst, hp, hstage, hrem, hlenr, hpd, hpdv, htemp, hblkr, hrcode⟩
  · have driven (p : Phase) : s.drives p = true ↔ s.phase = p := by simp [drives_iff, hr]
    exact ⟨driven .idle, driven .emit, driven .resp, driven .req, driven .wait⟩
  · rw [stepWith_env hms, State.envMove, State.releaseReset, if_pos hr]
  · exact ⟨fun _ ht => (stepWith_transfers hI h ht rfl).1, fun _ ht => (stepWith_transfers hI h ht rfl).1,
      fun _ ht => (stepWith_transfers hI h ht rfl).1, fun _ ht => (stepWith_transfers hI h ht rfl).1,
      fun _ ht => (stepWith_transfers hI h ht rfl).1⟩

/-! ## The exchange with the cipher (R45 to R47, R119, R120) -/

/-- Settles O41: the micro-step of REQ, whose request is the current (`KEY`, `V`). -/
theorem requestCarriesKeyAndCounter : Obligations.RequestCarriesKeyAndCounter := by
  intro E s hI hp hmoves hready
  rw [stepWith_of_inv hI hmoves]
  simp only [microStep, hp, microReq, hready, if_true]
  rfl

/-- The answer of a delivering cipher is that to the current (`KEY`, `V`) (R47, R120). -/
theorem microStep_wait (hI : s.Inv) (hp : s.phase = .wait) (hvalid : s.crspValid = true)
    (a : Host.Outcome State Fault Refusal) :
    microStep E a s =
      .next (State.note (s.takeAnswer (E s.key s.v).toList) (.crsp (E s.key s.v).toList)) := by
  simp only [microStep, hp, microWait, inflight_of_inv hI hp, hvalid, if_true]
  rfl

theorem remNext_eq (s : State) : s.remNext = BitVec.ofNat 32 (s.rem.toNat - min 16 s.rem.toNat) := by
  have hlt := s.rem.isLt
  refine BitVec.eq_of_toNat_eq ?_
  rw [remNext_toNat, BitVec.toNat_ofNat, State.chunk]
  omega

/-- Settles O42: the bytes wanted all stand in the block, so the write ends right after them. -/
theorem answerIsTaken : Obligations.AnswerIsTaken := by
  intro E s hI hp hmoves hvalid r n off
  have hstep : stepWith E s = .next (State.note (s.takeAnswer r) (.crsp r)) := by
    rw [stepWith_of_inv hI hmoves, microStep_wait hI hp hvalid]
  refine ⟨fun hs => ?_, fun hs => ?_⟩
  · rw [hstep, State.takeAnswer, if_pos hs]
    rfl
  · have hlen : (r.take n).length = n := by simp [r, n]
    have hwrite : memWrite s.temp off (r.take n) = s.temp.take off ++ r.take n ++ s.temp.drop (off + n) := by
      rw [memWrite, hlen]
    rw [hstep, State.takeAnswer, if_neg hs, ← hwrite, ← remNext_eq]
    rfl

end Sys2Proof.Machine
end

section
/-! The transfers of a command against its effect (20_memory.md R36, R37, R51; R125, R144): what the record's readings
`destOf`, `requestsOf` and `responsesOf` find in them. -/

namespace Sys2Proof.Machine

variable {E : Cipher} {s t : State}

/-! ## The readings of a record -/

@[simp] theorem destOf_append (a b : List Event) : destOf (a ++ b) = destOf a ++ destOf b := List.flatMap_append ..

@[simp] theorem requestsOf_append (a b : List Event) : requestsOf (a ++ b) = requestsOf a ++ requestsOf b :=
  List.flatMap_append ..

@[simp] theorem destOf_nil : destOf [] = [] := rfl
@[simp] theorem requestsOf_nil : requestsOf [] = [] := rfl
@[simp] theorem responsesOf_nil : responsesOf [] = [] := rfl

@[simp] theorem destOf_cipherEvents (r : Request) : destOf (cipherEvents E r) = [] := rfl
@[simp] theorem requestsOf_cipherEvents (r : Request) : requestsOf (cipherEvents E r) = [r] := rfl
@[simp] theorem responsesOf_cipherEvents (r : Request) : responsesOf (cipherEvents E r) = [] := rfl

@[simp] theorem destOf_out (b : Beat) (more : List Event) :
    destOf (.out b :: more) = b.data.take b.nb.toNat ++ destOf more := rfl
@[simp] theorem requestsOf_out (b : Beat) (more : List Event) : requestsOf (.out b :: more) = requestsOf more := rfl
@[simp] theorem responsesOf_out (b : Beat) (more : List Event) : responsesOf (.out b :: more) = responsesOf more := rfl

@[simp] theorem destOf_rsp (c : BitVec 4) : destOf [.rsp c] = [] := rfl
@[simp] theorem requestsOf_rsp (c : BitVec 4) : requestsOf [.rsp c] = [] := rfl
@[simp] theorem responsesOf_rsp (c : BitVec 4) : responsesOf [.rsp c] = [c] := rfl

/-- The exchanges of an Update show its requests and nothing else (R46). -/
theorem readings_exchanges (rs : List Request) :
    destOf (rs.flatMap (cipherEvents E)) = [] ∧ requestsOf (rs.flatMap (cipherEvents E)) = rs ∧
    responsesOf (rs.flatMap (cipherEvents E)) = [] := by
  induction rs with
  | nil => exact ⟨rfl, rfl, rfl⟩
  | cons r rs ih => simp [ih]

/-- The transfers of an output fill show its bytes in the beats and its requests, block by block (R36, R51). -/
theorem readings_fillTransfers (key v : Bytes) (n : Nat) :
    destOf (fillTransfers E (fill E key v n)) = (fill E key v n).bytes ∧
    requestsOf (fillTransfers E (fill E key v n)) = (fill E key v n).requests ∧
    responsesOf (fillTransfers E (fill E key v n)) = [] := by
  induction n using Nat.strong_induction_on generalizing v with
  | _ n ih =>
    rcases Nat.eq_zero_or_pos n with rfl | hpos
    · rw [fill_zero]
      exact ⟨rfl, rfl, rfl⟩
    · have h0 : n ≠ 0 := hpos.ne'
      obtain ⟨hdest, hrequests, hresponses⟩ := ih (n - min 16 n) (by omega) (incr v)
      have hbeat : (padBlock (E key (incr v)).toList (min 16 n)).take (BitVec.ofNat 5 (min 16 n)).toNat =
          (E key (incr v)).toList.take (min 16 n) := by
        rw [toNat_ofNat_nb (Nat.min_le_left 16 n), take_padBlock _ _ (by simp)]
      rw [fillTransfers_step key v n h0, fill_step key v n h0]
      simp [-BitVec.toNat_ofNat, hbeat, hdest, hrequests, hresponses]

/-! ## The effect of a packet -/

/-- The output of an effect is an output fill's (R87, R107): its bytes, with the requests that made them. -/
def Effect.outputIsFill (e : Effect) (E : Cipher) : Prop :=
  ∃ key v n, e.output = (fill E key v n).bytes ∧ e.outRequests = (fill E key v n).requests

/-- No output is the fill of no bytes. -/
theorem outputIsFill_of_nil {e : Effect} (ho : e.output = []) (hr : e.outRequests = []) : e.outputIsFill E :=
  ⟨[], [], 0, by rw [fill_zero, ho], by rw [fill_zero, hr]⟩

/-- Both forms of the generate procedure end in the output fill and the Update after it (R107). -/
theorem generateProcedure_outputIsFill (ks : KeySize) (key v : Bytes) (len : Nat) (add : Option Bytes) :
    (generateProcedure ks E key v len add).code = codeOk ∧ (generateProcedure ks E key v len add).outputIsFill E := by
  cases add with
  | none => exact ⟨rfl, _, _, _, rfl, rfl⟩
  | some a => exact ⟨rfl, _, _, _, rfl, rfl⟩

/-- A command is refused, or it succeeds and its output is a fill's (R100, R105, R106, R144). -/
theorem commandEffect_cases (ks : KeySize) (E : Cipher) (i : Instr) (g : Generator) :
    (∃ c, commandEffect ks E i g = refuseCommand g c) ∨
    ((commandEffect ks E i g).code = codeOk ∧ (commandEffect ks E i g).outputIsFill E) := by
  cases i with
  | instantiate ent pers =>
    rw [commandEffect, cmdInstantiate]
    split
    · exact .inr ⟨rfl, outputIsFill_of_nil rfl rfl⟩
    · exact .inl ⟨_, rfl⟩
  | generate len =>
    rw [commandEffect, cmdGenerate]
    split
    · exact .inr (generateProcedure_outputIsFill ..)
    · exact .inl ⟨_, rfl⟩
  | generateAi len add =>
    rw [commandEffect, cmdGenerateAi]
    split
    · split
      · exact .inr (generateProcedure_outputIsFill ..)
      · exact .inl ⟨_, rfl⟩
    · exact .inl ⟨_, rfl⟩

theorem packetEffect_cases (ks : KeySize) (E : Cipher) (p : Bytes) (g : Generator) :
    (∃ c, packetEffect ks E p g = refuseCommand g c) ∨
    ((packetEffect ks E p g).code = codeOk ∧ (packetEffect ks E p g).outputIsFill E) := by
  unfold packetEffect
  cases decode p with
  | error why => exact .inl ⟨_, rfl⟩
  | ok i => exact commandEffect_cases ks E i g

/-- Where the output is a fill's, the transfers of an effect show it, its requests, and one response. -/
theorem readings_events {e : Effect} (h : e.outputIsFill E) :
    destOf (e.events E) = e.output ∧ requestsOf (e.events E) = e.requests ∧ responsesOf (e.events E) = [e.code] := by
  obtain ⟨key, v, n, houtput, hrequests⟩ := h
  have hevents : e.events E = e.preRequests.flatMap (cipherEvents E) ++ fillTransfers E (fill E key v n) ++
      e.postRequests.flatMap (cipherEvents E) ++ [.rsp e.code] := by
    rw [Effect.events, houtput, hrequests]; rfl
  obtain ⟨hdest, hreqs, hresps⟩ := readings_fillTransfers (E := E) key v n
  rw [hevents, Effect.requests, houtput, hrequests]
  simp [readings_exchanges, hdest, hreqs, hresps]

/-- Settles O27: a refused packet shows its response alone; an accepted one shows its output fill between its Updates. -/
theorem transfersCarryTheEffect : Obligations.TransfersCarryTheEffect := by
  intro ks E p g e
  rcases packetEffect_cases ks E p g with ⟨c, hrefused⟩ | ⟨hcode, hfill⟩
  · have he : e = refuseCommand g c := hrefused
    rw [he]
    obtain ⟨hdest, hrequests, hresponses⟩ :=
      readings_events (outputIsFill_of_nil (E := E) (e := refuseCommand g c) rfl rfl)
    exact ⟨hdest, hrequests, hresponses, fun _ => ⟨rfl, rfl⟩⟩
  · obtain ⟨hdest, hrequests, hresponses⟩ := readings_events hfill
    exact ⟨hdest, hrequests, hresponses, fun herror => absurd hcode herror⟩

end Sys2Proof.Machine
end

section
/-! The packets (30_encoding.md R60 to R68): decoding against encoding (R63, R64), the opcode map (R62, R66), and what an
idle block does with the next packet on CMD (R34, R68, R142). -/

namespace Sys2Proof

/-- The byte `OP` of a mnemonic (R62). -/
def Mnemonic.opcode : Mnemonic → Byte
  | .instantiate => 0x01
  | .generate => 0x02
  | .generateAi => 0x03

/-- The row of a command (R62). -/
def Instr.mnemonic : Instr → Mnemonic
  | .instantiate _ _ => .instantiate
  | .generate _ => .generate
  | .generateAi _ _ => .generateAi

end Sys2Proof

namespace Sys2Proof.Machine

variable {E : Cipher} {s t : State} {p rest : Bytes}

/-! ## The opcode map (R62, R63, R66) -/

/-- Settles O10: H is the number of the first eight bytes, and its digits in base 256 are the bytes. -/
theorem headerFieldsAreTheHeaderBytes : Obligations.HeaderFieldsAreTheHeaderBytes :=
  fun b0 b1 b2 b3 b4 b5 b6 b7 more =>
    ⟨headerWord_toNat _, rfl, rfl, rfl, rfl, rfl, hdr_bytes b0 b1 b2 b3 b4 b5 b6 b7 more⟩

/-- Every row of the map fixes `OP` (R62). -/
theorem hdrOp_of_hits {r : OpRow} {h : BitVec 64} (hr : r ∈ opRows) (hh : r.hits h = true) : hdrOp h = r.op.opcode := by
  simp only [opRows, List.mem_cons, List.not_mem_nil, or_false] at hr
  rcases hr with rfl | rfl | rfl
  · exact ((hits_instantiate h).1 hh).1
  · exact ((hits_generate h).1 hh).1
  · exact ((hits_generateAi h).1 hh).1

theorem row_eq_of_opcode_eq : ∀ r ∈ opRows, ∀ q ∈ opRows, r.op.opcode = q.op.opcode → r = q := by
  decide

/-- Settles O11: the rows that a header matches have its `OP`, and no two rows share one. -/
theorem opcodeRowsAreDisjoint : Obligations.OpcodeRowsAreDisjoint :=
  ⟨rfl, fun _ r q hr hq hrh hqh =>
    row_eq_of_opcode_eq r hr q hq ((hdrOp_of_hits hr hrh).symm.trans (hdrOp_of_hits hq hqh))⟩

theorem hdrOp_of_decodeHeader {h : BitVec 64} {m : Mnemonic} (hm : decodeHeader h = some m) : hdrOp h = m.opcode := by
  obtain ⟨r, hfind, rfl⟩ := Option.map_eq_some_iff.1 hm
  exact hdrOp_of_hits (List.mem_of_find?_eq_some hfind) (List.find?_some (p := (OpRow.hits · h)) hfind)

/-- The illegal headers (R66). -/
theorem decodeHeader_eq_none_iff (h : BitVec 64) :
    decodeHeader h = none ↔
      (hdrOp h ≠ 0x01 ∧ hdrOp h ≠ 0x02 ∧ hdrOp h ≠ 0x03) ∨ hdrRsv h ≠ 0 ∨
      (hdrOp h = 0x01 ∧ hdrLen h ≠ 0) ∨ (hdrOp h = 0x02 ∧ (hdrAlen h ≠ 0 ∨ hdrBlen h ≠ 0)) ∨
      (hdrOp h = 0x03 ∧ hdrBlen h ≠ 0) := by
  rw [decodeHeader_fields]
  split_ifs with h1 h2 h3
  · simp [h1]
  · simp [h2]
  · simp [h3]
  · rw [eq_self_iff_true, true_iff]
    tauto

/-- Settles O12: the fields at which no row matches, and `OP` where one does. -/
theorem illegalHeadersAreThoseOfTheMap : Obligations.IllegalHeadersAreThoseOfTheMap :=
  fun h => ⟨decodeHeader_eq_none_iff h, hdrOp_of_decodeHeader, hdrOp_of_decodeHeader, hdrOp_of_decodeHeader⟩

/-! ## Decoding against encoding (R60 to R65) -/

/-- Settles O9: each packet is evaluated. -/
theorem writtenOutPacketsDecode : Obligations.WrittenOutPacketsDecode :=
  ⟨by decide, by decide, by decide, by decide⟩

/-- A command's header is legal, whatever the lengths of its operands (R61, R62). -/
theorem decodeHeader_header (i : Instr) : decodeHeader i.header = some i.mnemonic := by
  rw [decodeHeader_fields]
  cases i with
  | instantiate ent pers =>
    obtain ⟨hop, -, -, hrsv, hlen⟩ := header_fields_of_build 0x01#8 ent.length pers.length 0#32
    exact if_pos ⟨hop, hrsv, hlen⟩
  | generate len =>
    obtain ⟨hop, halen, hblen, hrsv, -⟩ := header_fields_of_build 0x02#8 0 0 len
    simp [Instr.header, Instr.mnemonic, hop, halen, hblen, hrsv]
  | generateAi len add =>
    obtain ⟨hop, -, hblen, hrsv, -⟩ := header_fields_of_build 0x03#8 add.length 0 len
    simp [Instr.header, Instr.mnemonic, hop, hblen, hrsv]

theorem wholePacket_encode {i : Instr} (hw : i.wellFormed = true) : wholePacket (encode i) := by
  have hframing : Laws.Framing.Statement i := by
    cases i with
    | instantiate ent pers => exact Laws.Framing.instantiate ent pers
    | generate len => exact Laws.Framing.generate len
    | generateAi len add => exact Laws.Framing.generateAi len add
  exact (wholePacket_of_frame (hframing hw [])).1

/-- The header's lengths cut the operand bytes of a packet into the operands again (R64). -/
theorem assembleOperands_encode {i : Instr} (hw : i.wellFormed = true) :
    assembleOperands i.mnemonic (encode i) = i := by
  cases i with
  | instantiate ent pers =>
    simp only [Instr.wellFormed, operandFits, Bool.and_eq_true, decide_eq_true_eq] at hw
    obtain ⟨-, halen, hblen, -, -⟩ := header_fields_of_build 0x01#8 ent.length pers.length 0#32
    simp only [Instr.mnemonic, assembleOperands, headerWord_encode, ← List.drop_drop, encode_drop, Instr.header,
      Instr.operands, halen, hblen, toNat_ofNat_byte hw.1, toNat_ofNat_byte hw.2, List.take_left, List.drop_left,
      List.take_length]
  | generate len =>
    obtain ⟨-, -, -, -, hlen⟩ := header_fields_of_build 0x02#8 0 0 len
    simp only [Instr.mnemonic, assembleOperands, headerWord_encode, Instr.header, hlen]
  | generateAi len add =>
    simp only [Instr.wellFormed, operandFits, decide_eq_true_eq] at hw
    obtain ⟨-, halen, -, -, hlen⟩ := header_fields_of_build 0x03#8 add.length 0 len
    simp only [Instr.mnemonic, assembleOperands, headerWord_encode, encode_drop, Instr.header, Instr.operands, halen,
      hlen, toNat_ofNat_byte hw, List.take_length]

theorem decode_encode {i : Instr} (hw : i.wellFormed = true) : decode (encode i) = .ok i := by
  rw [decode_wholePacket (wholePacket_encode hw), headerWord_encode, decodeHeader_header]
  exact congrArg Except.ok (assembleOperands_encode hw)

/-- Settles O7: the packet is whole, its header is of the command's row, and its operands are cut out again. -/
theorem decodeInvertsEncode : Obligations.DecodeInvertsEncode :=
  fun _ => decode_encode

/-- No operand is longer than its header byte says (R61). -/
theorem operandFits_take (b : Byte) (op : Bytes) : operandFits (op.take b.toNat) = true := by
  have hb := b.isLt
  simp only [operandFits, List.length_take, decide_eq_true_eq]
  omega

theorem wellFormed_assembleOperands (m : Mnemonic) (p : Bytes) : (assembleOperands m p).wellFormed = true := by
  cases m with
  | instantiate => simp only [assembleOperands, Instr.wellFormed, operandFits_take, Bool.and_self]
  | generate => rfl
  | generateAi => exact operandFits_take _ _

/-- Settles O8: a packet that decodes is its command's packet, and a command cut out of a packet is well-formed. -/
theorem encodeInvertsDecode : Obligations.EncodeInvertsDecode := by
  intro p i h
  obtain ⟨-, m, -, rfl⟩ := wholePacket_of_decode h
  exact ⟨encode_of_decode h, wellFormed_assembleOperands m p⟩

/-! ## A missing personalization (R75, R102) -/

theorem operandFits_of_seed (ks : KeySize) {op : Bytes} (h : op.length = ks.seed) : operandFits op = true := by
  have hseed := seed_cases ks
  simp only [operandFits, decide_eq_true_eq]
  omega

theorem xorBytes_zeros (s : Bytes) : xorBytes s (zeros s.length) = s := by
  refine List.ext_getElem (by simp) fun i _ _ => ?_
  simp [xorBytes, zeros]

/-- Settles O16: operands of `SEED` bytes fit a packet, and zero bytes change nothing in the XOR. -/
theorem missingPersonalizationIsZeros : Obligations.MissingPersonalizationIsZeros := by
  intro ks ent hent
  have hzeros : (zeros ks.seed).length = ks.seed := length_zeros _
  refine ⟨decode_encode ?_, ?_⟩
  · rw [Instr.wellFormed, operandFits_of_seed ks hent, Bool.true_and]
    exact operandFits_of_seed ks hzeros
  · rw [seedOf, readOperand_of_length ks ent hent, readOperand_of_length ks _ hzeros, ← hent, xorBytes_zeros]

/-! ## The next packet of an idle block (R34, R68, R142) -/

theorem stepWith_idle (hI : s.Inv) (hp : s.phase = .idle) (hm : s.moves = []) : stepWith E s = acceptCommand s := by
  rw [stepWith_of_inv hI hm]
  simp only [microStep, hp]

/-- A whole packet next on CMD is taken, and then refused or executed (R116, R142). -/
theorem acceptCommand_packet (hr : s.rstI = .inactive) (hw : wholePacket p) (hcmd : s.cmd = p ++ rest) :
    (∃ why, decode p = .error why ∧ acceptCommand s = .next ((s.taken p rest).raiseError .illegalCommand)) ∨
    (∃ i, decode p = .ok i ∧ acceptCommand s = exec i (s.taken p rest)) := by
  have hframe : frame s.cmd = some (p, rest) := by rw [hcmd]; exact frame_of_wholePacket hw rest
  rcases acceptCommand_cases hr with ⟨hf, -⟩ | ⟨p', rest', why, hf, hd, ha⟩ | ⟨p', rest', i, hf, hd, ha⟩ <;>
    rw [hframe] at hf <;> cases hf
  · exact .inl ⟨why, hd, ha⟩
  · exact .inr ⟨i, hd, ha⟩

/-- Executing a command touches neither CMD nor the record (R116). -/
theorem exec_stream (i : Instr) (s : State) : ∃ t, exec i s = .next t ∧ t.cmd = s.cmd ∧ t.trace = s.trace := by
  rcases exec_cases i s with ⟨_, _, -, -, -, hx⟩ | ⟨_, -, -, hx⟩ | ⟨_, _, -, -, -, hx⟩ | ⟨_, hx, -⟩ <;>
    exact ⟨_, hx, rfl, rfl⟩

/-- Settles O13: taking the packet is the same for every header, and what follows leaves the stream alone. -/
theorem packetsAreConsumedWhole : Obligations.PacketsAreConsumedWhole := by
  intro E s p rest hI hp hr hm hw hcmd
  rw [stepWith_idle hI hp hm]
  rcases acceptCommand_packet hr hw hcmd with ⟨why, -, ha⟩ | ⟨i, -, ha⟩
  · exact ⟨_, ha, rfl, rfl⟩
  · obtain ⟨t, hx, hrest, htrace⟩ := exec_stream i (s.taken p rest)
    exact ⟨t, ha.trans hx, hrest, htrace⟩

/-- Settles O36: a packet with an illegal header decodes to no command, so it is refused. -/
theorem illegalCommandIsRaised : Obligations.IllegalCommandIsRaised := by
  intro E s p rest hI hp hr hm hw hcmd hnone
  rw [stepWith_idle hI hp hm]
  rcases acceptCommand_packet hr hw hcmd with ⟨why, -, ha⟩ | ⟨i, hd, -⟩
  · exact ha
  · obtain ⟨-, m, hsome, -⟩ := wholePacket_of_decode hd
    simp [hnone] at hsome

/-! ## The response codes (R69) -/

/-- Settles O55: the code delivered is RCODE, which the invariant bounds. -/
theorem noReservedResponseCodeIsDelivered : Obligations.NoReservedResponseCodeIsDelivered := by
  intro E s t c hI h ht
  obtain ⟨-, hc, -⟩ := stepWith_transfers hI h ht rfl
  have hle : s.rcode.toNat ≤ 3 := hI.2.2.2.2
  rw [← show c = s.rcode from hc] at hle
  bv_omega

end Sys2Proof.Machine
end

section
/-! The counter and the keystream (41_counter_increment.md R80 to R82, 42_block_production.md R84 to R93): the carry
chain of INCR, increments in a row, and FILL in closed form. -/

namespace Sys2Proof.Machine

variable {E : Cipher}

/-! ## INCR (R80, R81) -/

/-- Settles O17: `counterPlus` is the value R81 names, for any number of increments. -/
theorem incrementIsAddOneModulo2To128 : Obligations.IncrementIsAddOneModulo2To128 :=
  incr_eq_counterPlus_one

/-- The carry runs through the bytes `ff` that stand least significant and goes on above them. -/
theorem incrChain_ff_append (k : Nat) (bs : Bytes) :
    incrChain (List.replicate k 0xff ++ bs) = zeros k ++ incrChain bs := by
  induction k with
  | zero => rfl
  | succ k ih =>
    have hwraps : (0xff : Byte) + 1 = 0 := by decide
    rw [List.replicate_succ, List.cons_append, incrChain, if_pos hwraps, ih]
    rfl

/-- Bytes `ff` at the end turn to `00` and pass the carry to the bytes above (R80). -/
theorem incr_append_ff (v : Bytes) (k : Nat) : incr (v ++ List.replicate k 0xff) = incr v ++ zeros k := by
  rw [incr, List.reverse_append, List.reverse_replicate, incrChain_ff_append, List.reverse_append, zeros,
    List.reverse_replicate, incr]

/-- Any other byte at the end takes the carry (R80). -/
theorem incr_concat_of_ne_ff (above : Bytes) {b : Byte} (hb : b ≠ 0xff) : incr (above ++ [b]) = above ++ [b + 1] := by
  have hstays : b + 1 ≠ 0 := by bv_omega
  rw [incr, List.reverse_concat, incrChain, if_neg hstays, List.reverse_cons, List.reverse_reverse]

/-- Settles O18: the carry runs through the bytes `ff` and ends at the first other byte, or drops out of the top. -/
theorem incrementCarryChain : Obligations.IncrementCarryChain :=
  ⟨fun above b k hb => by rw [incr_append_ff, incr_concat_of_ne_ff above hb], incr_append_ff [] 16⟩

/-! ## Increments in a row (R92, R93) -/

@[simp] theorem length_counterPlus (v : Bytes) (k : Nat) : (counterPlus v k).length = 16 := length_beBytes ..

theorem beNat_counterPlus (v : Bytes) (k : Nat) : beNat (counterPlus v k) = (beNat v + k) % 2 ^ 128 := by
  rw [counterPlus, beNat_beBytes, show (256 : Nat) ^ 16 = 2 ^ 128 by norm_num, Nat.mod_mod]

theorem counterPlus_zero (v : Bytes) (hv : v.length = 16) : counterPlus v 0 = v := by
  have hlt := beNat_lt v
  rw [hv, show (256 : Nat) ^ 16 = 2 ^ 128 by norm_num] at hlt
  rw [counterPlus, Nat.add_zero, Nat.mod_eq_of_lt hlt, ← hv, beBytes_beNat]

@[simp] theorem counterPlus_counterPlus (v : Bytes) (j k : Nat) :
    counterPlus (counterPlus v j) k = counterPlus v (j + k) := by
  rw [counterPlus, beNat_counterPlus, Nat.mod_add_mod, add_assoc]
  rfl

/-! ## The blocks asked for (R88, R93) -/

/-- The requests for the blocks `B_first`, `B_(first+1)`, ..., `count` of them. -/
def streamRequests (key v : Bytes) (first count : Nat) : List Request :=
  (List.range count).map fun k => ⟨key, counterPlus v (first + k)⟩

theorem streamBytes_eq_flatMap (E : Cipher) (key v : Bytes) (first count : Nat) :
    streamBytes E key v first count = (streamRequests key v first count).flatMap fun r => (E r.key r.block).toList := by
  rw [streamBytes, streamRequests, List.flatMap_map]

theorem streamRequests_succ (key v : Bytes) (first count : Nat) :
    streamRequests key v first (count + 1) = ⟨key, counterPlus v first⟩ :: streamRequests key v (first + 1) count := by
  simp [streamRequests, List.range_succ_eq_map, Function.comp_def, add_assoc, add_comm 1]

/-- Counting on from a counter that is itself `j` increments on. -/
theorem streamRequests_counterPlus (key v : Bytes) (j first count : Nat) :
    streamRequests key (counterPlus v j) first count = streamRequests key v (j + first) count := by
  simp [streamRequests, add_assoc]

theorem streamBytes_succ (E : Cipher) (key v : Bytes) (first count : Nat) :
    streamBytes E key v first (count + 1) =
      (E key (counterPlus v first)).toList ++ streamBytes E key v (first + 1) count := by
  simp only [streamBytes_eq_flatMap, streamRequests_succ, List.flatMap_cons]

theorem streamBytes_counterPlus (E : Cipher) (key v : Bytes) (j first count : Nat) :
    streamBytes E key (counterPlus v j) first count = streamBytes E key v (j + first) count := by
  simp only [streamBytes_eq_flatMap, streamRequests_counterPlus]

/-! ## FILL (R84, R87, R89) -/

theorem take_append_block (block rest : Bytes) (n : Nat) (hb : block.length = 16) :
    (block ++ rest).take n = block.take (min 16 n) ++ rest.take (n - min 16 n) := by
  have hleft : n - min 16 n = n - 16 := by omega
  rw [List.take_append, List.take_eq_take_min (i := n), hb, hleft, min_comm]

/-- FILL in closed form, by induction on the bytes still to be written: one block, then the FILL of the rest from the
counter one increment on. -/
theorem fill_eq_stream (key v : Bytes) (n : Nat) (hv : v.length = 16) :
    fill E key v n = {
      bytes := (streamBytes E key v 1 ((n + 15) / 16)).take n
      v := counterPlus v ((n + 15) / 16)
      requests := streamRequests key v 1 ((n + 15) / 16) } := by
  induction n using Nat.strong_induction_on generalizing v with
  | _ n ih =>
    rcases Nat.eq_zero_or_pos n with rfl | hn
    · simp [fill_zero, streamRequests, counterPlus_zero v hv]
    · rw [fill_step key v n hn.ne', ih _ (by omega) _ (by simpa using hv), incr_eq_counterPlus_one v hv,
        div16_succ n hn.ne', streamBytes_succ, streamRequests_succ, take_append_block _ _ _ (Vector.length_toList ..)]
      simp only [streamBytes_counterPlus, streamRequests_counterPlus, counterPlus_counterPlus, Nat.add_comm 1]

/-- Settles O19: the closed form of FILL, and its length. -/
theorem fillIsTheKeystream : Obligations.FillIsTheKeystream := by
  intro E key v n hv
  have hlen := fill_length (E := E) key v n
  rw [fill_eq_stream key v n hv] at hlen ⊢
  exact ⟨rfl, rfl, rfl, hlen⟩

end Sys2Proof.Machine
end

section
/-! The prefix property of FILL (42_block_production.md R91): a longer FILL writes the same bytes and goes on. -/

namespace Sys2Proof.Machine

variable {E : Cipher}

/-- The bytes of FILL(`n`) are cut from one block and the FILL of what is left after it, whatever `n` is: when no whole
block is wanted nothing is left. -/
theorem fill_bytes_eq_take (key v : Bytes) (n : Nat) :
    (fill E key v n).bytes = ((E key (incr v)).toList ++ (fill E key (incr v) (n - 16)).bytes).take n := by
  rcases Nat.eq_zero_or_pos n with rfl | hn
  · simp [fill_zero]
  rcases Nat.lt_or_ge n 16 with hshort | hlong
  · rw [fill_short key v n hn.ne' hshort, Nat.sub_eq_zero_of_le hshort.le, fill_zero, List.append_nil]
  · have hlen : ((E key (incr v)).toList ++ (fill E key (incr v) (n - 16)).bytes).length ≤ n := by
      rw [List.length_append, Vector.length_toList, fill_length]; omega
    rw [fill_long key v n hlong, List.take_of_length_le hlen]

/-- The prefix property, by induction on the bytes of the shorter FILL: both cut their first block from the same cipher
answer, and what is left of them starts from the same counter again. -/
theorem fill_bytes_eq_take_fill (key v : Bytes) {n m : Nat} (h : n ≤ m) :
    (fill E key v n).bytes = (fill E key v m).bytes.take n := by
  induction n using Nat.strong_induction_on generalizing v m with
  | _ n ih =>
    rcases Nat.eq_zero_or_pos n with rfl | hn
    · simp [fill_zero]
    have hrest := ih (n - 16) (by omega) (incr v) (Nat.sub_le_sub_right h 16)
    rw [fill_bytes_eq_take key v n, fill_bytes_eq_take key v m, List.take_take, min_eq_left h, hrest]
    simp [List.take_append]

/-- Settles O20: the prefix property of FILL, from the cutting of its bytes block by block. -/
theorem fillPrefixProperty : Obligations.FillPrefixProperty :=
  fun _ key v _ _ h => fill_bytes_eq_take_fill key v h

end Sys2Proof.Machine
end

section
/-! UPDATE (43_update.md R95 to R99) in closed form, and the cipher requests that it and the commands make (44_instantiate.md
R100, 45_generate.md R105 to R109). -/

namespace Sys2Proof.Machine

variable {E : Cipher}

/-! ## The split of the mixed scratch (R96 to R98) -/

/-- Step 2 of UPDATE (R97): the scratch, XORed with the provided data when present. -/
def mixedWith (scratch : Bytes) : Option Bytes → Bytes
  | some d => xorBytes scratch d
  | none => scratch

theorem length_mixedWith_le (scratch : Bytes) (pd : Option Bytes) : (mixedWith scratch pd).length ≤ scratch.length := by
  cases pd with
  | none => exact le_rfl
  | some d => exact (length_xorBytes scratch d).trans_le (min_le_left _ _)

theorem length_mixedWith {scratch : Bytes} {pd : Option Bytes} (h : ∀ d ∈ pd, d.length = scratch.length) :
    (mixedWith scratch pd).length = scratch.length := by
  cases pd with
  | none => rfl
  | some d => rw [mixedWith, length_xorBytes, h d rfl, min_self]

/-- UPDATE cuts the mixed scratch into `KEY` and `V` with nothing left over, whatever the provided data is, because the
scratch has `SEED` bytes (R95, R98). -/
theorem update_eq_split (ks : KeySize) (key v : Bytes) (pd : Option Bytes) :
    update ks E key v pd = {
      key := (mixedWith (fill E key v ks.seed).bytes pd).take ks.bytes
      v := (mixedWith (fill E key v ks.seed).bytes pd).drop ks.bytes
      requests := (fill E key v ks.seed).requests } := by
  have hlen := length_mixedWith_le (fill E key v ks.seed).bytes pd
  rw [fill_length] at hlen
  have hseed := seed_eq ks
  have hcounter : ((mixedWith (fill E key v ks.seed).bytes pd).drop ks.bytes).length ≤ 16 := by
    rw [List.length_drop]; omega
  rw [← List.take_of_length_le hcounter]
  cases pd <;> rfl

/-- Settles O21: UPDATE is the split of the mixed scratch, and the scratch is the FILL of `SEED` bytes in closed form. -/
theorem updateSplitsTheMixedKeystream : Obligations.UpdateSplitsTheMixedKeystream := by
  intro ks E key v pd hv hpd scratch t
  have hfill : fill E key v ks.seed = ⟨scratch, counterPlus v ks.nu, streamRequests key v 1 ks.nu⟩ :=
    fill_eq_stream key v ks.seed hv
  have hscratch : scratch.length = ks.seed := by
    have hlen := fill_length (E := E) key v ks.seed
    rwa [hfill] at hlen
  have ht : mixedWith scratch pd = t := by cases pd <;> rfl
  rw [update_eq_split, hfill, ht]
  exact ⟨rfl, rfl, rfl, by rw [← ht, length_mixedWith (hscratch ▸ hpd), hscratch]⟩

/-- Settles O22: XOR with as many zero bytes as the scratch has leaves the scratch. -/
theorem zeroProvidedDataIsAsNone : Obligations.ZeroProvidedDataIsAsNone := by
  intro ks E key v
  have hmixed : mixedWith (fill E key v ks.seed).bytes (some (zeros ks.seed)) =
      mixedWith (fill E key v ks.seed).bytes none := by
    have hzeros := xorBytes_zeros (fill E key v ks.seed).bytes
    rwa [fill_length] at hzeros
  rw [update_eq_split, update_eq_split, hmixed]

/-! ## How many requests (R99, R109, R169) -/

/-- FILL(`n`) asks for `ceil(n/16)` blocks, whatever the counter it starts from holds. -/
theorem length_fill_requests (key v : Bytes) (n : Nat) : (fill E key v n).requests.length = (n + 15) / 16 := by
  induction n using Nat.strong_induction_on generalizing v with
  | _ n ih =>
    rcases Nat.eq_zero_or_pos n with rfl | hn
    · rw [fill_zero]; rfl
    · rw [fill_step key v n hn.ne', List.length_cons, ih _ (by omega)]
      omega

theorem length_update_requests (ks : KeySize) (key v : Bytes) (pd : Option Bytes) :
    (update ks E key v pd).requests.length = ks.nu := by
  rw [update_eq_split, length_fill_requests, nu_eq]

/-- The output and the Update after it (R107), counted after the requests already made. -/
theorem outputAndRekey_counts (ks : KeySize) (key v : Bytes) (len : Nat) (add : Option Bytes) (pre : List Request) :
    (outputAndRekey ks E key v len add pre).requests.length = pre.length + (len + 15) / 16 + ks.nu ∧
    (outputAndRekey ks E key v len add pre).outRequests.length = (len + 15) / 16 := by
  simp only [outputAndRekey, Effect.requests, List.length_append, length_fill_requests, length_update_requests, and_self]

theorem cmdInstantiate_count (ks : KeySize) (g : Generator) {ent pers : Bytes} (he : ent.length = ks.seed)
    (hp : pers.length = ks.seed) : (cmdInstantiate ks E ent pers g).requests.length = ks.nu := by
  have hsized : (seedSized ks ent && seedSized ks pers) = true := by
    rw [(seedSized_iff ks ent).2 he, (seedSized_iff ks pers).2 hp]; rfl
  rw [cmdInstantiate, if_pos hsized]
  exact length_update_requests ks (zeros ks.bytes) (zeros 16) (some (seedOf ks ent pers))

theorem cmdGenerate_counts (ks : KeySize) (len : BitVec 32) {g : Generator} (hi : g.inst = true) :
    (cmdGenerate ks E len g).requests.length = (len.toNat + 15) / 16 + ks.nu ∧
    (cmdGenerate ks E len g).outRequests.length = (len.toNat + 15) / 16 := by
  rw [cmdGenerate, if_pos hi]
  simp only [generateProcedure, outputAndRekey_counts, List.length_nil, Nat.zero_add, and_self]

theorem cmdGenerateAi_counts (ks : KeySize) (len : BitVec 32) {g : Generator} {add : Bytes} (hi : g.inst = true)
    (ha : add.length = ks.seed) :
    (cmdGenerateAi ks E len add g).requests.length = ks.nu + (len.toNat + 15) / 16 + ks.nu ∧
    (cmdGenerateAi ks E len add g).outRequests.length = (len.toNat + 15) / 16 := by
  rw [cmdGenerateAi, if_pos hi, if_pos ((seedSized_iff ks add).2 ha)]
  simp only [generateProcedure, outputAndRekey_counts, length_update_requests, and_self]

/-- The blocks asked for under one key, output and Update together (R169). -/
theorem blocksUnderOneKey_le (ks : KeySize) (len : BitVec 32) : (len.toNat + 15) / 16 + ks.nu ≤ 2 ^ 28 + 3 := by
  have hlen := len.isLt
  have hnu := seed_cases ks
  omega

/-- Settles O29: the counts of the three commands, and the bound. -/
theorem requestCounts : Obligations.RequestCounts :=
  fun ks _ g _ _ _ len =>
    ⟨cmdInstantiate_count ks g, cmdGenerate_counts ks len, cmdGenerateAi_counts ks len, blocksUnderOneKey_le ks len⟩

end Sys2Proof.Machine
end

section
/-! INSTANTIATE (44_instantiate.md R100 to R104): its operands count by their XOR alone, its run from the accepted state
ends in the closed form of R101, and what the block held before leaves no mark on it. -/

namespace Sys2Proof.Machine

variable {E : Cipher} {s : State} {ent pers : Bytes}

/-! ## Acceptance (R102, R116) -/

theorem seedOf_eq_zipWith {ks : KeySize} (he : ent.length = ks.seed) (hp : pers.length = ks.seed) :
    seedOf ks ent pers = List.zipWith (· ^^^ ·) ent pers := by
  rw [seedOf, readOperand_of_length ks ent he, readOperand_of_length ks pers hp]
  rfl

theorem exec_instantiate_accepted (he : ent.length = s.ks.seed) (hp : pers.length = s.ks.seed) :
    exec (.instantiate ent pers) s = .next (s.acceptedInstantiate ent pers) :=
  execInstantiate_accepted ent pers he hp

/-- Settles O30: the operands reach the accepted state as `PD` only, which is their XOR. -/
theorem onlyTheXorOfTheOperandsMatters : Obligations.OnlyTheXorOfTheOperandsMatters := by
  intro s e1 p1 e2 p2 he1 hp1 he2 hp2 hxor
  have hseed : seedOf s.ks e1 p1 = seedOf s.ks e2 p2 := by
    rw [seedOf_eq_zipWith he1 hp1, seedOf_eq_zipWith he2 hp2, hxor]
  rw [exec_instantiate_accepted he1 hp1, exec_instantiate_accepted he2 hp2, State.acceptedInstantiate, hseed]

theorem acceptedInstantiate_inv (hr : s.readyForCommand) (he : ent.length = s.ks.seed) (hpl : pers.length = s.ks.seed) :
    (s.acceptedInstantiate ent pers).Inv := by
  obtain ⟨hI, hp, hrst, -⟩ := hr
  rw [inv_iff] at hI ⊢
  simp only [hp] at hI
  exact ⟨by simp [State.fillTotal, seedOf, readOperand, hI, he, hpl], .inl hrst⟩

/-! ## From acceptance to the response (R101, R126) -/

/-- The Update of INSTANTIATE (R100): from the zero seed, with the XOR of the operands. -/
def instantiateUpdate (ks : KeySize) (E : Cipher) (ent pers : Bytes) : Rekeyed :=
  update ks E (zeros ks.bytes) (zeros 16) (some (seedOf ks ent pers))

/-- The accepted INSTANTIATE is its one Update, and the response returns the working registers to idle (R27, R123). -/
theorem run_acceptedInstantiate (hr : s.readyForCommand) (he : ent.length = s.ks.seed) (hpl : pers.length = s.ks.seed) :
    runWith E (4 * s.ks.nu + 3) (s.acceptedInstantiate ent pers) = .next { s with
      key := (instantiateUpdate s.ks E ent pers).key, v := (instantiateUpdate s.ks E ent pers).v, inst := true,
      stage := .inst,
      trace := s.trace ++ (instantiateUpdate s.ks E ent pers).requests.flatMap (cipherEvents E) ++ [.rsp codeOk] } := by
  have hrun := run_lastUpdate (E := E) 0 (acceptedInstantiate_inv hr he hpl) hr.2.2.2 rfl (.inl rfl) rfl
  rw [Nat.zero_add] at hrun
  obtain ⟨hI, hp, -, -⟩ := hr
  obtain ⟨hrem, hlenr, hpd, hpdv, htemp, hrcode⟩ := idle_of_inv hI hp
  refine hrun.trans ?_
  simp [runWith, State.deliverResponse, State.note, State.provided, instantiateUpdate, hp, hrem, hlenr, hpd, hpdv, htemp,
    hrcode]

theorem exchanges_eq_flatMap (E : Cipher) (key v : Bytes) (first count : Nat) :
    exchanges E key v first count = (streamRequests key v first count).flatMap (cipherEvents E) := by
  rw [exchanges, streamRequests, List.flatMap_map]

/-- Settles O23: acceptance, then the Update from the zero seed in the closed form of R96 to R98. -/
theorem instantiateCompletes : Obligations.InstantiateCompletes := by
  intro E s ent pers hr he hpl seed t
  have hseed : seedOf s.ks ent pers = seed := seedOf_eq_zipWith he hpl
  have hlen : ∀ d ∈ some seed, d.length = s.ks.seed := by simp [seed, he, hpl]
  obtain ⟨hkey, hv, hreq, -⟩ :=
    updateSplitsTheMixedKeystream s.ks E (zeros s.ks.bytes) (zeros 16) (some seed) (length_zeros 16) hlen
  refine ⟨s.acceptedInstantiate ent pers, exec_instantiate_accepted he hpl, ?_, ?_⟩
  · rw [State.acceptedInstantiate, hseed]
    rfl
  · rw [run_acceptedInstantiate hr he hpl, instantiateUpdate, hseed, hkey, hv, hreq, exchanges_eq_flatMap]
    rfl

/-! ## Forgetting the old generator (R104) -/

/-- At the command level INSTANTIATE does not look at the generator state there was (R100 step 1). -/
theorem cmdInstantiate_of_seedSized {ks : KeySize} (g : Generator) (he : ent.length = ks.seed)
    (hpl : pers.length = ks.seed) :
    cmdInstantiate ks E ent pers g = {
      gen := ⟨(instantiateUpdate ks E ent pers).key, (instantiateUpdate ks E ent pers).v, true⟩
      output := [], code := codeOk, preRequests := [], outRequests := []
      postRequests := (instantiateUpdate ks E ent pers).requests } := by
  have hsized : (seedSized ks ent && seedSized ks pers) = true := by
    rw [(seedSized_iff ks ent).2 he, (seedSized_iff ks pers).2 hpl]; rfl
  rw [cmdInstantiate, if_pos hsized]
  rfl

theorem wellFormed_instantiate {ks : KeySize} (he : ent.length = ks.seed) (hpl : pers.length = ks.seed) :
    (Instr.instantiate ent pers).wellFormed = true := by
  rw [Instr.wellFormed, operandFits_of_seed ks he, operandFits_of_seed ks hpl, Bool.true_and]

/-- The packet of an INSTANTIATE with operands of `SEED` bytes is accepted and ends in the effect of the command (R126). -/
theorem run_instantiatePacket {rest : Bytes} (hr : s.readyForCommand) (he : ent.length = s.ks.seed)
    (hpl : pers.length = s.ks.seed) (hcmd : s.cmd = encode (.instantiate ent pers) ++ rest) :
    runWith E (4 * s.ks.nu + 4) s = .next (s.afterEffect E (encode (.instantiate ent pers)) rest
      (cmdInstantiate s.ks E ent pers s.generator) .inst) := by
  have hw := wellFormed_instantiate he hpl
  rcases acceptCommand_packet hr.2.2.1 (wholePacket_encode hw) hcmd with ⟨why, hd, -⟩ | ⟨i, hd, ha⟩ <;>
    rw [decode_encode hw] at hd <;> cases hd
  exact run_instantiate ent pers hr he hpl (ha.trans (exec_instantiate_accepted he hpl))

/-- Settles O31: both runs end in the effect of the command, and that effect is the same for any old generator. -/
theorem instantiateForgetsTheOldGenerator : Obligations.InstantiateForgetsTheOldGenerator := by
  intro E s1 s2 ent pers rest1 rest2 h1 h2 hks he hpl hc1 hc2
  have r1 := run_instantiatePacket (E := E) h1 he hpl hc1
  have r2 := run_instantiatePacket (E := E) h2 (hks ▸ he) (hks ▸ hpl) hc2
  rw [cmdInstantiate_of_seedSized _ he hpl] at r1
  rw [← hks, cmdInstantiate_of_seedSized _ he hpl] at r2
  exact ⟨_, _, _, r1, r2, rfl, rfl, rfl, rfl, rfl, rfl⟩

end Sys2Proof.Machine
end

section
/-! Delays (46_sequencer.md R114, R128; 70_reset_and_hazards.md R172, R175): a run with delays against the run from the same
state in which the environment takes part at once. -/

namespace Sys2Proof.Machine

variable {E : Cipher} {s t : State} {i : Instr}

/-! ## Who moves next: a turn of the sequencer leaves the list -/

theorem acceptCommand_moves (h : acceptCommand s = .next t) : t.moves = s.moves := by
  rcases acceptCommand_next h with
    rfl | ⟨-, rfl⟩ |
    ⟨p, rest, -, -, ⟨c, rfl⟩ | ⟨ent, pers, -, -, -, rfl⟩ | ⟨len, -, -, rfl⟩ | ⟨len, add, -, -, -, rfl⟩⟩ <;> rfl

theorem microStep_moves (h : microStep E (acceptCommand s) s = .next t) : t.moves = s.moves := by
  rcases microStep_cases h with
    ⟨-, ha⟩ | ⟨-, -, rfl⟩ | ⟨-, -, -, rfl⟩ | ⟨-, -, -, rfl⟩ | ⟨-, rfl⟩ | ⟨-, -, rfl⟩ | ⟨-, -, rfl⟩ | ⟨-, -, rfl⟩ |
    ⟨q, -, -, -, -, rfl⟩ | ⟨q, -, -, -, -, rfl⟩ | ⟨-, -, rfl⟩ | ⟨-, -, rfl⟩ |
    ⟨-, -, rfl⟩ | ⟨-, -, rfl⟩ | ⟨-, -, rfl⟩ | ⟨-, -, rfl⟩ | ⟨-, -, rfl⟩
  case inl => exact acceptCommand_moves ha
  all_goals rfl

/-! ## Acceptance looks at no readiness (R116) -/

theorem exec_withoutDelays (h : exec i s = .next t) : exec i s.withoutDelays = .next t.withoutDelays := by
  cases i with
  | instantiate ent pers =>
    rw [exec, execInstantiate] at h
    split at h <;> cases h
    next hsized => exact if_pos hsized
    next hsized => exact if_neg hsized
  | generate len =>
    rw [exec, execGenerate] at h
    split at h <;> cases h
    next hinst => exact if_pos hinst
    next hinst => exact if_neg hinst
  | generateAi len add =>
    rw [exec, execGenerateAi] at h
    split at h
    next hinst =>
      split at h <;> cases h
      next hsized => exact (if_pos hinst).trans (if_pos hsized)
      next hsized => exact (if_pos hinst).trans (if_neg hsized)
    next hinst => cases h; exact if_neg hinst

theorem fetch_withoutDelays (s : State) :
    s.withoutDelays.fetch = s.fetch.map fun taken => (taken.1, taken.2.withoutDelays) := by
  unfold State.fetch
  rw [withoutDelays_cmd]
  cases frame s.cmd <;> rfl

theorem acceptCommand_withoutDelays (h : acceptCommand s = .next t) :
    acceptCommand s.withoutDelays = .next t.withoutDelays := by
  cases hr : s.rstI with
  | asserted => rw [acceptCommand_asserted hr] at h; cases h; exact acceptCommand_asserted hr
  | released => rw [acceptCommand_released hr] at h; cases h; exact acceptCommand_released hr
  | inactive =>
    rw [acceptCommand_inactive hr] at h
    rw [acceptCommand_inactive (s := s.withoutDelays) hr, fetch_withoutDelays]
    cases hf : s.fetch with
    | none => rw [hf] at h; cases h; rfl
    | some taken =>
      obtain ⟨decoded, u⟩ := taken
      rw [hf] at h
      cases decoded with
      | error why => cases h; rfl
      | ok i => exact exec_withoutDelays h

/-! ## A delayed step waits, or is the step without delays (R128, R172) -/

/-- A micro-step that waits for a transfer changes nothing; any other is made without delays as well. -/
theorem microStep_withoutDelays (h : microStep E (acceptCommand s) s = .next t) :
    t = s ∨ microStep E (acceptCommand s.withoutDelays) s.withoutDelays = .next t.withoutDelays := by
  rcases microStep_cases h with
    ⟨hp, ha⟩ | ⟨hp, hr, rfl⟩ | ⟨hp, hr, hs, rfl⟩ | ⟨hp, hr, hs, rfl⟩ | ⟨hp, rfl⟩ | ⟨hp, -, rfl⟩ | ⟨-, -, rfl⟩ | ⟨-, -, rfl⟩ |
    ⟨q, hp, hq, -, hs, rfl⟩ | ⟨q, hp, hq, -, hs, rfl⟩ | ⟨hp, -, rfl⟩ | ⟨-, -, rfl⟩ |
    ⟨hp, hs, rfl⟩ | ⟨hp, hs, rfl⟩ | ⟨hp, hs, rfl⟩ | ⟨hp, -, rfl⟩ | ⟨-, -, rfl⟩
  · right
    simp only [microStep, withoutDelays_phase, hp]
    exact acceptCommand_withoutDelays ha
  -- FILL
  · exact .inr (microStep_fill (s := s.withoutDelays) hp hr _)
  · exact .inr (microStep_fill_post (s := s.withoutDelays) hp hr hs _)
  · exact .inr (microStep_fill_mix (s := s.withoutDelays) hp hr hs _)
  -- INC
  · right
    simp only [microStep, withoutDelays_phase, hp]
    rfl
  -- REQ
  · right
    simp only [microStep, withoutDelays_phase, hp]
    rfl
  · exact .inl rfl
  -- WAIT
  · exact .inl rfl
  iterate 2
    right
    simp only [microStep, withoutDelays_phase, hp, microWait, withoutDelays_inflight, hq, State.takeAnswer,
      withoutDelays_stage, hs]
    rfl
  -- EMIT
  · right
    simp only [microStep, withoutDelays_phase, hp]
    rfl
  · exact .inl rfl
  -- MIX
  iterate 3
    right
    simp only [microStep, withoutDelays_phase, hp, microMix, withoutDelays_stage, hs]
    rfl
  -- RESP
  · exact .inr (microStep_resp (s := s.withoutDelays) hp rfl _)
  · exact .inl rfl

theorem envMove_withoutDelays {m : EnvMove} (h : (Move.env m).isDelay = true) :
    (s.envMove m).withoutDelays = s.withoutDelays ∧ (s.envMove m).moves = s.moves := by
  cases m with
  | pause => exact ⟨rfl, rfl⟩
  | setReady c b => cases c <;> exact ⟨rfl, rfl⟩
  | offer _ | readStatus | reset _ | releaseReset => cases h

/-- With nothing but delays to come, a step either disappears when the delays are left out, or is one step without them. -/
theorem stepWith_withoutDelays (hd : ∀ m ∈ s.moves, m.isDelay = true) (h : stepWith E s = .next t) :
    (∀ m ∈ t.moves, m.isDelay = true) ∧
    (t.withoutDelays = s.withoutDelays ∨ stepWith E s.withoutDelays = .next t.withoutDelays) := by
  rcases stepWith_cases h with ⟨m, ms, hms, rfl⟩ | ⟨-, hplaced, hm⟩
  · rw [hms, List.forall_mem_cons] at hd
    obtain ⟨hsame, hmoves⟩ := envMove_withoutDelays (s := { s with moves := ms }) hd.1
    exact ⟨by rw [hmoves]; exact hd.2, .inl hsame⟩
  · have hmoves : t.moves = s.moves.tail := microStep_moves hm
    refine ⟨fun m hmem => hd m (List.mem_of_mem_tail (hmoves ▸ hmem)), ?_⟩
    rcases microStep_withoutDelays hm with rfl | hstep
    · exact .inl rfl
    · exact .inr ((sequencerStep_of_placed (s := s.withoutDelays) hplaced).trans hstep)

/-- The run without delays keeps up with the delayed one, step by step. -/
theorem runWith_withoutDelays (n : Nat) (hd : ∀ m ∈ s.moves, m.isDelay = true) (h : runWith E n s = .next t) :
    ∃ m ≤ n, runWith E m s.withoutDelays = .next t.withoutDelays := by
  induction n generalizing s with
  | zero => cases h; exact ⟨0, le_rfl, rfl⟩
  | succ n ih =>
    rw [runWith] at h
    cases hs : stepWith E s with
    | next u =>
      rw [hs] at h
      obtain ⟨hdu, hstep⟩ := stepWith_withoutDelays hd hs
      obtain ⟨m, hm, hrun⟩ := ih hdu h
      rcases hstep with hsame | hstep
      · exact ⟨m, hm.trans n.le_succ, hsame ▸ hrun⟩
      · exact ⟨m + 1, Nat.succ_le_succ hm, by rw [runWith, hstep]; exact hrun⟩
    | fault r => rw [hs] at h; cases h
    | refused r => rw [hs] at h; cases h

/-- Settles O59: the run without delays reaches the state itself, its delays left out. -/
theorem delaysDoNotMatter : Obligations.DelaysDoNotMatter := by
  intro E s t n hd h
  obtain ⟨m, hm, hrun⟩ := runWith_withoutDelays n hd h
  exact ⟨m, t.withoutDelays, hm, hrun, rfl⟩

end Sys2Proof.Machine
end

section
/-! GENERATE and GENERATE_AI (45_generate.md R105 to R111): their runs from the accepted state end in the closed forms of
R105 and R106. -/

namespace Sys2Proof.Machine

variable {E : Cipher} {s : State}

theorem length_v_of_inv (hI : s.Inv) : s.v.length = 16 := hI.1.2.1

/-! ## Closed forms of the transfers and of UPDATE (R51, R96 to R98) -/

/-- Beat by beat, the transfers of an output fill are those of its closed form. -/
theorem fillTransfers_eq_outputTransfers (key v : Bytes) (n : Nat) (hv : v.length = 16) :
    fillTransfers E (fill E key v n) = outputTransfers E key v (fill E key v n).bytes := by
  have hlen := fill_length (E := E) key v n
  rw [fillTransfers, beatsOf, outputTransfers, hlen, congrArg Keystream.requests (fill_eq_stream key v n hv),
    streamRequests, List.zipWith_map, List.zipWith_self, List.flatMap_def]

theorem update_eq_stream (ks : KeySize) (key v : Bytes) (pd : Option Bytes) (hv : v.length = 16) :
    update ks E key v pd = {
      key := (mixedWith ((streamBytes E key v 1 ks.nu).take ks.seed) pd).take ks.bytes
      v := (mixedWith ((streamBytes E key v 1 ks.nu).take ks.seed) pd).drop ks.bytes
      requests := streamRequests key v 1 ks.nu } := by
  rw [update_eq_split, fill_eq_stream key v ks.seed hv, nu_eq]

/-- The exchanges from a counter that is itself `j` increments on. -/
theorem exchanges_counterPlus (key v : Bytes) (j first count : Nat) :
    exchanges E key (counterPlus v j) first count = exchanges E key v (j + first) count := by
  simp only [exchanges_eq_flatMap, streamRequests_counterPlus]

/-- A state after the split of an Update, in closed form. -/
theorem rekeyed_eq_stream (hv : s.v.length = 16) :
    s.rekeyed E = { s with
      key := (mixedWith ((streamBytes E s.key s.v 1 s.ks.nu).take s.ks.seed) s.provided).take s.ks.bytes
      v := (mixedWith ((streamBytes E s.key s.v 1 s.ks.nu).take s.ks.seed) s.provided).drop s.ks.bytes
      rem := 0, temp := zeros s.ks.seed, trace := s.trace ++ exchanges E s.key s.v 1 s.ks.nu } := by
  rw [State.rekeyed, update_eq_stream _ _ _ _ hv, exchanges_eq_flatMap]

/-! ## The output and the Update after it (R107) -/

/-- The bytes of an output of `n` bytes (R93, R105). -/
def outputOf (E : Cipher) (key v : Bytes) (n : Nat) : Bytes := (streamBytes E key v 1 ((n + 15) / 16)).take n

/-- The mixed scratch of the Update after an output of `n` bytes (R96, R97, R105, R106). -/
def mixedAfter (ks : KeySize) (E : Cipher) (key v : Bytes) (n : Nat) (pd : Option Bytes) : Bytes :=
  mixedWith ((streamBytes E key v ((n + 15) / 16 + 1) ks.nu).take ks.seed) pd

theorem fill_bytes_eq_outputOf (key v : Bytes) (n : Nat) (hv : v.length = 16) :
    (fill E key v n).bytes = outputOf E key v n := by
  rw [fill_eq_stream key v n hv, outputOf]

theorem length_outputOf (key v : Bytes) (n : Nat) (hv : v.length = 16) : (outputOf E key v n).length = n := by
  rw [← fill_bytes_eq_outputOf key v n hv, fill_length]

/-- From the start of the output to the response, in closed form; the blocks of the Update are those after the output's. -/
theorem run_outputAndRekey_stream (hI : s.Inv) (hc : s.cooperative) (hp : s.phase = .fill) (hs : s.stage = .gen) :
    runWith E (5 * ((s.rem.toNat + 15) / 16) + 4 * s.ks.nu + 4) s = .next (State.deliverResponse { s with
      key := (mixedAfter s.ks E s.key s.v s.rem.toNat s.provided).take s.ks.bytes
      v := (mixedAfter s.ks E s.key s.v s.rem.toNat s.provided).drop s.ks.bytes
      stage := .post, rem := 0, temp := zeros s.ks.seed, phase := .resp
      trace := s.trace ++ outputTransfers E s.key s.v (outputOf E s.key s.v s.rem.toNat) ++
        exchanges E s.key s.v ((s.rem.toNat + 15) / 16 + 1) s.ks.nu }) := by
  have hv := length_v_of_inv hI
  have hrun := run_outputAndRekey (E := E) 0 hI hc hp hs
  rw [Nat.zero_add, fillTransfers_eq_outputTransfers _ _ _ hv, fill_bytes_eq_outputOf _ _ _ hv,
    fill_eq_stream _ _ _ hv] at hrun
  rw [hrun, runWith, rekeyed_eq_stream (length_counterPlus s.v _)]
  simp only [streamBytes_counterPlus, exchanges_counterPlus]
  rfl

/-- The response returns the working registers of a command to what they were while idle (R27, R123). -/
theorem deliverResponse_toIdle {key v pd : Bytes} {stage : Stage} {lenr : BitVec 32} {pdv : Bool} {trace : List Event}
    (hI : s.Inv) (hp : s.phase = .idle) :
    State.deliverResponse { s with
      key := key, v := v, stage := stage, rem := 0, lenr := lenr, pd := pd, pdv := pdv, temp := zeros s.ks.seed,
      rcode := codeOk, phase := .resp, trace := trace } =
    { s with key := key, v := v, stage := stage, trace := trace ++ [.rsp codeOk] } := by
  obtain ⟨hrem, hlenr, hpd, hpdv, htemp, hrcode⟩ := idle_of_inv hI hp
  simp [State.deliverResponse, State.note, hp, hrem, hlenr, hpd, hpdv, htemp, hrcode]

/-! ## GENERATE (R105, R110, R116) -/

theorem exec_generate_accepted (len : BitVec 32) (hi : s.inst = true) :
    exec (.generate len) s = .next (s.acceptedGenerate len) :=
  execGenerate_accepted len hi

theorem acceptedGenerate_inv (len : BitVec 32) (hr : s.readyForCommand) (hi : s.inst = true) :
    (s.acceptedGenerate len).Inv := by
  obtain ⟨hI, hp, hrst, -⟩ := hr
  rw [inv_iff] at hI ⊢
  simp only [hp] at hI
  exact ⟨by simp [State.fillTotal, noProvidedData, hI, hi], .inl hrst⟩

/-- Settles O24: acceptance, then the output and the Update after it, without provided data. -/
theorem generateCompletes : Obligations.GenerateCompletes := by
  intro E s len hr hi n dest t
  have ⟨hI, hp, _, hc⟩ := hr
  have hrun := run_outputAndRekey_stream (E := E) (acceptedGenerate_inv len hr hi) hc rfl rfl
  exact ⟨s.acceptedGenerate len, exec_generate_accepted len hi, rfl,
    length_outputOf s.key s.v len.toNat (length_v_of_inv hI),
    hrun.trans (congrArg Host.Outcome.next (deliverResponse_toIdle hI hp))⟩

/-! ## GENERATE_AI (R106, R108, R109, R116) -/

theorem exec_generateAi_accepted (len : BitVec 32) {add : Bytes} (hi : s.inst = true) (ha : add.length = s.ks.seed) :
    exec (.generateAi len add) s = .next (s.acceptedGenerateAi len add) :=
  execGenerateAi_accepted len add hi ha

/-- An additional input of `SEED` bytes is kept in `PD` as it is (R108, R116). -/
theorem acceptedGenerateAi_eq (len : BitVec 32) {add : Bytes} (ha : add.length = s.ks.seed) :
    s.acceptedGenerateAi len add = { s with
      pd := add, pdv := true, stage := .pre, rem := seedWord s.ks, lenr := len, rcode := codeOk, phase := .fill } := by
  rw [State.acceptedGenerateAi, readOperand_of_length s.ks add ha]

theorem acceptedGenerateAi_inv (len : BitVec 32) {add : Bytes} (hr : s.readyForCommand) (hi : s.inst = true)
    (ha : add.length = s.ks.seed) : (s.acceptedGenerateAi len add).Inv := by
  obtain ⟨hI, hp, hrst, -⟩ := hr
  rw [inv_iff] at hI ⊢
  simp only [hp] at hI
  exact ⟨by simp [State.fillTotal, readOperand, hI, hi, ha], .inl hrst⟩

/-- The state in which GENERATE_AI starts its output (R106, R122): the Update with the additional input is made, and `PD`
holds that input for the Update to come (R108). -/
abbrev State.outputStartAi (s : State) (E : Cipher) (len : BitVec 32) (add : Bytes) : State :=
  { s with
    key := (xorBytes ((streamBytes E s.key s.v 1 s.ks.nu).take s.ks.seed) add).take s.ks.bytes
    v := (xorBytes ((streamBytes E s.key s.v 1 s.ks.nu).take s.ks.seed) add).drop s.ks.bytes
    pd := add, pdv := true, stage := .gen, rem := len, lenr := len, temp := zeros s.ks.seed, rcode := codeOk,
    phase := .fill, trace := s.trace ++ exchanges E s.key s.v 1 s.ks.nu }

theorem run_toOutputStartAi (n : Nat) (len : BitVec 32) {add : Bytes} (hr : s.readyForCommand) (hi : s.inst = true)
    (ha : add.length = s.ks.seed) :
    (s.outputStartAi E len add).Inv ∧
      runWith E (n + (4 * s.ks.nu + 2)) (s.acceptedGenerateAi len add) = runWith E n (s.outputStartAi E len add) := by
  have haccepted := acceptedGenerateAi_inv len hr hi ha
  have ⟨_, _, _, hc⟩ := hr
  have hrun := run_preUpdate (E := E) n haccepted hc rfl rfl rfl
  rw [rekeyed_eq_stream (length_v_of_inv haccepted)] at hrun
  rw [acceptedGenerateAi_eq len ha] at hrun ⊢
  exact hrun

/-- Settles O25: acceptance, the Update before the output, then the output and the Update after it with the same
additional input. -/
theorem generateAiCompletes : Obligations.GenerateAiCompletes := by
  intro E s len add hr hi ha n t1 k1 v1 dest t
  have ⟨hI, hp, _, hc⟩ := hr
  obtain ⟨hstart, hpre⟩ := run_toOutputStartAi (E := E) (5 * n + 4 * s.ks.nu + 4) len hr hi ha
  have hrun := run_outputAndRekey_stream (E := E) hstart hc rfl rfl
  refine ⟨s.acceptedGenerateAi len add, exec_generateAi_accepted len hi ha, acceptedGenerateAi_eq len ha,
    length_outputOf k1 v1 len.toNat (length_v_of_inv hstart), ?_⟩
  rw [show 5 * n + 8 * s.ks.nu + 6 = 5 * n + 4 * s.ks.nu + 4 + (4 * s.ks.nu + 2) by ring, hpre]
  exact hrun.trans (congrArg Host.Outcome.next (deliverResponse_toIdle hI hp))

end Sys2Proof.Machine
end

section
/-! The sequencer (46_sequencer.md R114 to R128): what it does in each phase, along which edges it moves, where it waits and
where it is stuck, what acceptance leaves unchanged, and its agreement with the command level. -/

namespace Sys2Proof.Machine

variable {E : Cipher} {s t : State}

/-! ## Whole packets (R125, R126) -/

/-- Settles O26: the run of a whole packet, legal or not, from acceptance to its response. -/
theorem sequencerRefinesTheCommandLevel : Obligations.SequencerRefinesTheCommandLevel :=
  fun _ _ _ _ hr hw hcmd => runWith_packet hr hw hcmd

/-! ## Stuck states (R124, R160) and reset (R129) -/

/-- Settles O5: in a placed state every micro-step answers; in any other the turn is the fault. -/
theorem stuckExactlyOutsideTheReachableCombinations : Obligations.StuckExactlyOutsideTheReachableCombinations := by
  intro s hturn
  rw [step_eq, stepWith_of_sequencersTurn hturn]
  have hplaced : s.turnTaken.placed = s.placed := rfl
  cases h : s.placed with
  | true =>
    rw [h] at hplaced
    obtain ⟨t, ht⟩ := microStep_answers_of_placed (E := Config.E) hplaced
    rw [sequencerStep_of_placed hplaced, ht]
    simp
  | false => simp [sequencerStep, hplaced, h]

/-- Settles O6: the move of the environment puts every register at its reset value. -/
theorem resetInAnyPhase : Obligations.ResetInAnyPhase := by
  intro E s held ms hms
  exact ⟨_, stepWith_env hms, rfl, rfl, rfl, rfl, rfl, rfl, rfl, rfl, rfl, rfl, rfl, rfl, rfl, rfl, rfl, rfl, rfl, rfl⟩

/-! ## Acceptance (R116, R144) -/

theorem microStep_idle (hp : s.phase = .idle) (a : Host.Outcome State Fault Refusal) : microStep E a s = a := by
  simp only [microStep, hp]

/-- Settles O33: one of the three accepted states, in which RCODE is OK, or the entry of an error, in which it is not. -/
theorem execFrame : Obligations.ExecFrame := by
  intro i s t h
  rcases exec_cases i s with
    ⟨ent, pers, rfl, -, -, hx⟩ | ⟨len, -, -, hx⟩ | ⟨len, add, -, -, -, hx⟩ | ⟨c, hx, -⟩ <;>
    rw [hx] at h <;> cases h <;>
    refine ⟨rfl, rfl, rfl, rfl, rfl, rfl, rfl, rfl, rfl, rfl, rfl, rfl, ?_⟩
  · exact ⟨fun hne => absurd rfl (hne ent pers), fun hcode => absurd rfl hcode, fun _ => rfl⟩
  · exact ⟨fun _ => ⟨rfl, rfl, rfl⟩, fun hcode => absurd rfl hcode, fun _ => rfl⟩
  · exact ⟨fun _ => ⟨rfl, rfl, rfl⟩, fun hcode => absurd rfl hcode, fun _ => rfl⟩
  · exact ⟨fun _ => ⟨rfl, rfl, rfl⟩, fun _ => rfl, fun hcode => absurd hcode (errorCode_ne_ok c)⟩

/-- Settles O15: the packet of a well-formed command is whole and decodes to that command. -/
theorem stepRunsTheDecodedInstruction : Obligations.StepRunsTheDecodedInstruction := by
  intro s i rest hturn hplaced hp hr hw hcmd
  rw [step_eq, stepWith_of_sequencersTurn hturn, sequencerStep_of_placed (s := s.turnTaken) hplaced,
    microStep_idle (s := s.turnTaken) hp]
  have hdecode := decode_encode hw
  rcases acceptCommand_packet (s := s.turnTaken) hr (wholePacket_encode hw) hcmd with ⟨why, hd, -⟩ | ⟨j, hd, ha⟩ <;>
    rw [hdecode] at hd <;> cases hd
  exact ha

/-! ## The micro-steps of a command in progress (R117 to R123) -/

/-- Settles O39: the three micro-steps of FILL. -/
theorem fillLoopControl : Obligations.FillLoopControl := by
  intro E s hI hp hm
  rw [stepWith_of_inv hI hm]
  exact ⟨fun hr => microStep_fill hp hr _, fun hr hs => microStep_fill_post hp hr hs _,
    fun hr hs => microStep_fill_mix hp hr hs _⟩

theorem microStep_inc (hp : s.phase = .inc) (a : Host.Outcome State Fault Refusal) :
    microStep E a s = .next { s with v := incr s.v, phase := .req } := by
  simp only [microStep, hp, microInc]

/-- Settles O40: INCR of the 16 bytes of V is addition of one (R81). -/
theorem incMicroStep : Obligations.IncMicroStep := by
  intro E s hI hp hm
  rw [stepWith_of_inv hI hm, microStep_inc hp, incr_eq_counterPlus_one s.v (length_v_of_inv hI)]
  rfl

theorem microStep_emit (hp : s.phase = .emit) (hready : s.outReady = true) (a : Host.Outcome State Fault Refusal) :
    microStep E a s =
      .next (State.note { s with rem := s.remNext, blkr := zeros 16, phase := .fill } (.out s.beat)) := by
  simp only [microStep, hp, microEmit, hready, if_true]

/-- Settles O43: the micro-step of EMIT, with the new REM as a number. -/
theorem emitDeliversTheBeat : Obligations.EmitDeliversTheBeat := by
  intro E s hI hp hm hready n
  rw [stepWith_of_inv hI hm, microStep_emit hp hready, remNext_eq]
  rfl

/-- The split of MIX as an update of the state (R98, R122). -/
theorem mixSplit_eq (hI : s.Inv) :
    s.mixSplit = { s with
      key := (if s.pdv = true then List.zipWith (· ^^^ ·) s.temp s.pd else s.temp).take s.ks.bytes
      v := (if s.pdv = true then List.zipWith (· ^^^ ·) s.temp s.pd else s.temp).drop s.ks.bytes
      temp := zeros s.ks.seed } := by
  obtain ⟨hkey, hv⟩ := mixSplit_eq_take_drop hI
  rw [← hkey, ← hv]
  rfl

/-- Settles O44: the split, then the hand-over of each stage. -/
theorem mixSplitsAndHandsOver : Obligations.MixSplitsAndHandsOver := by
  intro E s hI hp hm mixed u
  have hsplit : s.mixSplit = u := mixSplit_eq hI
  rw [stepWith_of_inv hI hm, microStep_mix hp]
  refine ⟨fun hs => ?_, fun hs => ?_, fun hs => ?_⟩ <;> rw [← hsplit, microMix, hs]

/-- The idle invariant (R27) is the part of R124 about phase IDLE. -/
theorem workingClear_of_inv (hI : s.Inv) (hp : s.phase = .idle) : s.workingClear = true := by
  have hplaced := Inv.placed hI
  simp only [State.placed, State.phaseOk, hp, Bool.and_eq_true] at hplaced
  obtain ⟨⟨⟨⟨hclear, -⟩, -⟩, -⟩, -⟩ := hplaced
  exact hclear

/-- Settles O45: the micro-step of RESP ends in an idle state with the invariant. -/
theorem responseIsDeliveredAndTheLatchesCleared : Obligations.ResponseIsDeliveredAndTheLatchesCleared := by
  intro E s hI hp hm hready
  have hstep : stepWith E s = .next s.deliverResponse := by rw [stepWith_of_inv hI hm, microStep_resp hp hready]
  exact ⟨s.deliverResponse, hstep, rfl, workingClear_of_inv (stepWith_inv hI hstep) rfl⟩

/-! ## Waiting (R128, R167, R170) -/

/-- A step that changes nothing is repeated for ever. -/
theorem runWith_of_stepWith_same (n : Nat) (h : stepWith E s = .next s) : runWith E n s = .next s := by
  induction n with
  | zero => rfl
  | succ n ih => rw [runWith, h]; exact ih

/-- Acceptance waits while no whole packet is on CMD (R34). -/
theorem acceptCommand_of_frame_none (hr : s.rstI = .inactive) (hf : frame s.cmd = none) : acceptCommand s = .next s := by
  rw [acceptCommand_inactive hr, State.fetch, hf]

/-- Settles O46: each waiting micro-step answers the state itself. -/
theorem waitingForATransferChangesNothing : Obligations.WaitingForATransferChangesNothing := by
  intro E s n hI hm hwaits
  refine runWith_of_stepWith_same n ?_
  rw [stepWith_of_inv hI hm]
  rcases hwaits with ⟨hp, hreq⟩ | ⟨hp, hans⟩ | ⟨hp, hout⟩ | ⟨hp, hrsp⟩ | hr | ⟨hp, hr, hshort⟩
  · simp [microStep, hp, microReq, hreq]
  · simp [microStep, hp, microWait, inflight_of_inv hI hp, hans]
  · simp [microStep, hp, microEmit, hout]
  · simp [microStep, hp, microResp, hrsp]
  · obtain ⟨hp, -⟩ := reset_of_inv hI (by simp [hr])
    rw [microStep_idle hp, acceptCommand_asserted hr]
  · rw [microStep_idle hp, acceptCommand_of_frame_none hr ((frame_eq_none_iff s.cmd).2 hshort)]

/-! ## The edges (R115) -/

/-- A step from `s` to `t` goes along an edge of the table of R115, under the condition given there. -/
def State.edgeTo (s t : State) : Prop :=
  (s.phase = .idle ∧ t.phase = .fill ∧ t.rcode = 0 ∧ ∃ p, wholePacket p ∧ s.cmd = p ++ t.cmd) ∨
  (s.phase = .idle ∧ t.phase = .resp ∧ t.rcode ≠ 0 ∧ ∃ p, wholePacket p ∧ s.cmd = p ++ t.cmd) ∨
  (s.phase = .fill ∧ t.phase = .inc ∧ s.rem ≠ 0) ∨ (s.phase = .fill ∧ t.phase = .mix ∧ s.rem = 0 ∧ s.stage ≠ .gen) ∨
  (s.phase = .inc ∧ t.phase = .req) ∨ (s.phase = .req ∧ t.phase = .wait ∧ s.creqReady = true) ∨
  (s.phase = .wait ∧ t.phase = .fill ∧ s.crspValid = true ∧ s.stage ≠ .gen) ∨
  (s.phase = .wait ∧ t.phase = .emit ∧ s.crspValid = true ∧ s.stage = .gen) ∨
  (s.phase = .emit ∧ t.phase = .fill ∧ s.outReady = true) ∨
  (s.phase = .mix ∧ t.phase = .fill ∧ s.stage = .pre) ∨
  (s.phase = .mix ∧ t.phase = .resp ∧ (s.stage = .inst ∨ s.stage = .post)) ∨
  (s.phase = .resp ∧ t.phase = .idle ∧ s.rspReady = true)

/-- What a turn of the sequencer that stays in its phase does: it starts the Update after the output (R117), ends the moment
of release (R160), or waits (R128). -/
def State.staysAs (s t : State) : Prop :=
  (s.phase = .fill ∧ s.rem = 0 ∧ s.stage = .gen ∧ t.stage = .post) ∨
  (s.rstI = .released ∧ t = { s with rstI := .inactive }) ∨
  t = s

theorem acceptCommand_edge (hp : s.phase = .idle) (h : acceptCommand s = .next t) :
    (s.rstI = .inactive ∧ s.edgeTo t) ∨ (t.phase = s.phase ∧ s.staysAs t) := by
  rcases acceptCommand_next h with rfl | ⟨hr, rfl⟩ | ⟨p, rest, hr, hf, haccepted⟩
  · exact .inr ⟨rfl, .inr (.inr rfl)⟩
  · exact .inr ⟨rfl, .inr (.inl ⟨hr, rfl⟩)⟩
  · refine .inl ⟨hr, ?_⟩
    have hpacket : wholePacket p ∧ s.cmd = p ++ rest := wholePacket_of_frame hf
    rcases haccepted with ⟨c, rfl⟩ | ⟨ent, pers, -, -, -, rfl⟩ | ⟨len, -, -, rfl⟩ | ⟨len, add, -, -, -, rfl⟩
    · exact .inr (.inl ⟨hp, rfl, errorCode_ne_ok c, p, hpacket⟩)
    iterate 3 exact .inl ⟨hp, rfl, rfl, p, hpacket⟩

/-- A micro-step goes along an edge, and then the block is out of reset, or stays in its phase. -/
theorem microStep_edge (hI : s.Inv) (h : microStep E (acceptCommand s) s = .next t) :
    (s.rstI = .inactive ∧ s.edgeTo t) ∨ (t.phase = s.phase ∧ s.staysAs t) := by
  have running {p : Phase} (hp : s.phase = p) (hidle : p ≠ .idle) (hedge : s.edgeTo t) :
      (s.rstI = .inactive ∧ s.edgeTo t) ∨ (t.phase = s.phase ∧ s.staysAs t) :=
    .inl ⟨inactive_of_inv hI (hp ▸ hidle), hedge⟩
  rcases microStep_cases h with
    ⟨hp, ha⟩ | ⟨hp, hr, rfl⟩ | ⟨hp, hr, hs, rfl⟩ | ⟨hp, hr, hs, rfl⟩ | ⟨hp, rfl⟩ | ⟨hp, hready, rfl⟩ | ⟨-, -, rfl⟩ |
    ⟨-, -, rfl⟩ | ⟨q, hp, -, hvalid, hs, rfl⟩ | ⟨q, hp, -, hvalid, hs, rfl⟩ | ⟨hp, hready, rfl⟩ | ⟨-, -, rfl⟩ |
    ⟨hp, hs, rfl⟩ | ⟨hp, hs, rfl⟩ | ⟨hp, hs, rfl⟩ | ⟨hp, hready, rfl⟩ | ⟨-, -, rfl⟩
  · exact acceptCommand_edge hp ha
  -- FILL
  · exact running hp (by decide) (.inr (.inr (.inl ⟨hp, rfl, hr⟩)))
  · exact .inr ⟨rfl, .inl ⟨hp, hr, hs, rfl⟩⟩
  · exact running hp (by decide) (by simp [State.edgeTo, hp, hr, hs])
  -- INC
  · exact running hp (by decide) (by simp [State.edgeTo, hp])
  -- REQ
  · exact running hp (by decide) (by simp [State.edgeTo, hp, hready])
  · exact .inr ⟨rfl, .inr (.inr rfl)⟩
  -- WAIT
  · exact .inr ⟨rfl, .inr (.inr rfl)⟩
  · exact running hp (by decide) (by simp [State.edgeTo, hp, hvalid, hs])
  · exact running hp (by decide) (by simp [State.edgeTo, hp, hvalid, hs])
  -- EMIT
  · exact running hp (by decide) (by simp [State.edgeTo, hp, hready])
  · exact .inr ⟨rfl, .inr (.inr rfl)⟩
  -- MIX
  iterate 3 exact running hp (by decide) (by simp [State.edgeTo, hp, hs])
  -- RESP
  · exact running hp (by decide) (by simp [State.edgeTo, hp, hready])
  · exact .inr ⟨rfl, .inr (.inr rfl)⟩

/-- No edge of R115 leads from a phase to itself. -/
theorem phase_ne_of_edgeTo (h : s.edgeTo t) : t.phase ≠ s.phase := by
  rcases h with ⟨hs, ht, -⟩ | ⟨hs, ht, -⟩ | ⟨hs, ht, -⟩ | ⟨hs, ht, -⟩ | ⟨hs, ht⟩ | ⟨hs, ht, -⟩ | ⟨hs, ht, -⟩ |
    ⟨hs, ht, -⟩ | ⟨hs, ht, -⟩ | ⟨hs, ht, -⟩ | ⟨hs, ht, -⟩ | ⟨hs, ht, -⟩ <;>
    simp [hs, ht]

/-- Settles O47: of the environment's moves only reset changes PHASE; the sequencer's turn is one micro-step. -/
theorem phaseMovesAlongTheEdges : Obligations.PhaseMovesAlongTheEdges := by
  intro E s t hI h
  rcases stepWith_cases h with ⟨m, ms, hms, rfl⟩ | ⟨hturn, -, hm⟩
  · refine ⟨fun hne => ?_, fun _ hturn => absurd hturn (by simp [State.sequencersTurn, hms])⟩
    rcases envMove_ports { s with moves := ms } m with ⟨held, rfl, -⟩ | ⟨hphase, -⟩
    · exact .inl ⟨held, ms, hms, rfl⟩
    · exact absurd hphase hne
  · rcases microStep_edge (inv_withMoves hI s.moves.tail) hm with ⟨hr, hedge⟩ | ⟨hphase, hstays⟩
    · exact ⟨fun _ => .inr ⟨hturn, hr, hedge⟩, fun heq _ => absurd heq (phase_ne_of_edgeTo hedge)⟩
    · exact ⟨fun hne => absurd hphase hne, fun _ _ => hstays⟩

end Sys2Proof.Machine
end

section
/-! The exceptions (60_exceptions.md R140 to R156): that no run stops, the errors of each command and their order, and that a
refused packet leaves no mark. -/

namespace Sys2Proof.Machine

variable {E : Cipher} {s t : State} {p rest : Bytes}

/-! ## No run stops (R124, R128, R156) -/

theorem stepWith_answers (hI : s.Inv) : ∃ t, stepWith E s = .next t := by
  by_cases hturn : s.sequencersTurn
  · rw [stepWith_of_sequencersTurn hturn, sequencerStep_of_placed (s := s.turnTaken) (Inv.placed hI)]
    exact microStep_answers (inv_withMoves hI s.moves.tail)
  · cases hm : s.moves with
    | nil => simp [State.sequencersTurn, hm] at hturn
    | cons m ms => cases m with
      | sequencer => simp [State.sequencersTurn, hm] at hturn
      | env m => exact ⟨_, stepWith_env hm⟩

/-- The induction over a run, said once for any machine: an inductive predicate under which every step answers. -/
theorem core_run_answers {M : Host.Core} {P : M.State → Prop} (hstep : ∀ s, P s → ∃ t, M.step s = .next t ∧ P t)
    (n : Nat) {s : M.State} (hs : P s) : ∃ t, M.run n s = .next t ∧ P t := by
  induction n generalizing s with
  | zero => exact ⟨s, rfl, hs⟩
  | succ n ih =>
    obtain ⟨u, hu, hPu⟩ := hstep s hs
    rw [Host.Core.run, hu]
    exact ih hPu

/-- Settles O4: every step from an invariant state answers, and its answer has the invariant again. -/
theorem machineNeverStopsFromTheInvariant : Obligations.MachineNeverStopsFromTheInvariant := by
  intro s n hI
  have hstep : ∀ s : State, s.Inv → ∃ t, step s = .next t ∧ t.Inv := by
    intro s hI
    obtain ⟨t, ht⟩ := stepWith_answers (E := Config.E) hI
    exact ⟨t, ht, stepWith_inv hI ht⟩
  obtain ⟨t, ht, -⟩ := core_run_answers (M := Sys2Proof.core) hstep n hI
  exact ⟨t, ht⟩

/-! ## The errors of each command (R141, R143, R144) -/

theorem exec_generate_notInstantiated (len : BitVec 32) (hi : s.inst = false) :
    exec (.generate len) s = .next (s.raiseError .notInstantiated) := by
  simp [exec, execGenerate, hi]

theorem exec_generateAi_notInstantiated (len : BitVec 32) (add : Bytes) (hi : s.inst = false) :
    exec (.generateAi len add) s = .next (s.raiseError .notInstantiated) := by
  simp [exec, execGenerateAi, hi]

theorem exec_instantiate_wrongLength {ent pers : Bytes} (h : ent.length ≠ s.ks.seed ∨ pers.length ≠ s.ks.seed) :
    exec (.instantiate ent pers) s = .next (s.raiseError .invalidSeedLength) := by
  refine if_neg ?_
  rw [Bool.and_eq_true, seedSized_iff, seedSized_iff]
  tauto

theorem exec_generateAi_wrongLength (len : BitVec 32) {add : Bytes} (hi : s.inst = true) (h : add.length ≠ s.ks.seed) :
    exec (.generateAi len add) s = .next (s.raiseError .invalidSeedLength) := by
  simp [exec, execGenerateAi, hi, seedSized, h]

/-- Settles O34: INST is looked at before the operand. -/
theorem notInstantiatedIsRaised : Obligations.NotInstantiatedIsRaised :=
  fun _ len add hi => ⟨exec_generate_notInstantiated len hi, exec_generateAi_notInstantiated len add hi⟩

/-! ## The code with which acceptance ends (R116, R144) -/

/-- The state in which acceptance ends with a code: in FILL with OK, in RESP with any other. -/
def State.reports (t : State) (code : BitVec 4) : Prop := t.rcode = code ∧ t.phase = if code = 0 then .fill else .resp

theorem raiseError_reports (s : State) (c : ErrorCause) : (s.raiseError c).reports c.code :=
  ⟨rfl, (if_neg (errorCode_ne_ok c)).symm⟩

theorem exec_instantiate_reports (ent pers : Bytes) (s : State) : ∃ t, exec (.instantiate ent pers) s = .next t ∧
    t.reports (if ent.length ≠ s.ks.seed ∨ pers.length ≠ s.ks.seed then 3 else 0) := by
  split
  next h => exact ⟨_, exec_instantiate_wrongLength h, raiseError_reports s _⟩
  next h =>
    rw [not_or, not_not, not_not] at h
    exact ⟨_, exec_instantiate_accepted h.1 h.2, rfl, rfl⟩

theorem exec_generate_reports (len : BitVec 32) (s : State) : ∃ t, exec (.generate len) s = .next t ∧
    t.reports (if s.inst = false then 2 else 0) := by
  split
  next hi => exact ⟨_, exec_generate_notInstantiated len hi, raiseError_reports s _⟩
  next hi => exact ⟨_, exec_generate_accepted len (Bool.eq_true_of_not_eq_false hi), rfl, rfl⟩

theorem exec_generateAi_reports (len : BitVec 32) (add : Bytes) (s : State) :
    ∃ t, exec (.generateAi len add) s = .next t ∧
      t.reports (if s.inst = false then 2 else if add.length ≠ s.ks.seed then 3 else 0) := by
  split
  next hi => exact ⟨_, exec_generateAi_notInstantiated len add hi, raiseError_reports s _⟩
  next hi =>
    have hi := Bool.eq_true_of_not_eq_false hi
    split
    next h => exact ⟨_, exec_generateAi_wrongLength len hi h, raiseError_reports s _⟩
    next h => exact ⟨_, exec_generateAi_accepted len hi (not_not.1 h), rfl, rfl⟩

/-- Settles O35: the length check of both commands; GENERATE ends with OK or NOT_INSTANTIATED. -/
theorem invalidSeedLengthIsRaised : Obligations.InvalidSeedLengthIsRaised := by
  refine ⟨fun _ _ _ h => exec_instantiate_wrongLength h,
    fun _ len _ hi h => exec_generateAi_wrongLength len hi h, fun s t len h _ => ?_⟩
  obtain ⟨u, hu, hcode, -⟩ := exec_generate_reports len s
  cases h.symm.trans hu
  rw [hcode]
  split <;> decide

/-! ## The order of the errors (R145) -/

theorem header_bytes_of_wholePacket (hw : wholePacket p) :
    hdrOp (headerWord p) = p.getD 0 0 ∧ hdrAlen (headerWord p) = p.getD 1 0 ∧ hdrBlen (headerWord p) = p.getD 2 0 := by
  obtain ⟨b0, b1, b2, b3, b4, b5, b6, b7, more, rfl⟩ := header_cases p (whole_long hw)
  obtain ⟨hop, halen, hblen, -⟩ := hdr_bytes b0 b1 b2 b3 b4 b5 b6 b7 more
  exact ⟨hop, halen, hblen⟩

/-- The operands of a whole packet have the lengths that its header announces (R60, R64). -/
theorem operand_lengths_of_wholePacket (hw : wholePacket p) :
    ((p.drop 8).take (hdrAlen (headerWord p)).toNat).length = (p.getD 1 0).toNat ∧
    ((p.drop (8 + (hdrAlen (headerWord p)).toNat)).take (hdrBlen (headerWord p)).toNat).length = (p.getD 2 0).toNat := by
  obtain ⟨-, halen, hblen⟩ := header_bytes_of_wholePacket hw
  have hlen : p.length = 8 + (p.getD 1 0).toNat + (p.getD 2 0).toNat := hw
  rw [halen, hblen, List.length_take, List.length_drop, List.length_take, List.length_drop]
  omega

theorem decodeHeader_of_decode_error {why : DecodeError} (hw : wholePacket p) (hd : decode p = .error why) :
    decodeHeader (headerWord p) = none := by
  rw [decode_wholePacket hw] at hd
  cases hm : decodeHeader (headerWord p) with
  | none => rfl
  | some m => simp [hm] at hd

/-- Settles O37: an illegal packet is refused before it is executed; the codes of each command follow the order. -/
theorem errorsFollowThePriorityOrder : Obligations.ErrorsFollowThePriorityOrder := by
  intro E s p rest hI hp hr hm hw hcmd op alen blen code
  suffices h : ∃ t, acceptCommand s = .next t ∧ t.reports code by rwa [stepWith_idle hI hp hm]
  rcases acceptCommand_packet hr hw hcmd with ⟨why, hd, ha⟩ | ⟨i, hd, ha⟩
  · have hcode : code = 1 := if_pos (decodeHeader_of_decode_error hw hd)
    rw [hcode]
    exact ⟨_, ha, raiseError_reports _ .illegalCommand⟩
  · obtain ⟨-, m, hlegal, rfl⟩ := wholePacket_of_decode hd
    obtain ⟨halen, hblen⟩ : _ = alen ∧ _ = blen := operand_lengths_of_wholePacket hw
    have hop : op = m.opcode := (header_bytes_of_wholePacket hw).1.symm.trans (hdrOp_of_decodeHeader hlegal)
    rw [ha]
    cases m with
    | instantiate =>
      have hcode : code = if alen ≠ s.ks.seed ∨ blen ≠ s.ks.seed then 3 else 0 := by
        simp [code, hlegal, hop, Mnemonic.opcode]
      rw [hcode, ← halen, ← hblen]
      exact exec_instantiate_reports _ _ (s.taken p rest)
    | generate =>
      have hcode : code = if s.inst = false then 2 else 0 := by simp [code, hlegal, hop, Mnemonic.opcode]
      rw [hcode]
      exact exec_generate_reports _ (s.taken p rest)
    | generateAi =>
      have hcode : code = if s.inst = false then 2 else if alen ≠ s.ks.seed then 3 else 0 := by
        simp [code, hlegal, hop, Mnemonic.opcode]
      rw [hcode, ← halen]
      exact exec_generateAi_reports _ _ (s.taken p rest)

/-! ## A refused packet (R126, R144, R146) -/

/-- A packet in error takes two micro-steps and leaves STAGE alone (R126, R144). -/
theorem steps_and_stage_of_error (ks : KeySize) (g : Generator) (st : Stage) (h : (packetEffect ks E p g).code ≠ codeOk) :
    packetSteps ks E p g = 2 ∧ packetStage ks E p g st = st := by
  unfold packetSteps packetStage
  unfold packetEffect at h
  cases hd : decode p with
  | error why => exact ⟨rfl, rfl⟩
  | ok i =>
    rw [hd] at h
    exact ⟨if_neg h, if_neg h⟩

theorem events_refuseCommand (g : Generator) (c : ErrorCause) : (refuseCommand g c).events E = [.rsp c.code] := rfl

/-- Where a packet in error ends: every register is as before (R144, R146). -/
theorem afterPacket_of_error (h : (packetEffect s.ks E p s.generator).code ≠ codeOk) :
    s.afterPacket E p rest = { s with
      cmd := rest, trace := s.trace ++ [.cmd p, .rsp (packetEffect s.ks E p s.generator).code] } := by
  rcases packetEffect_cases s.ks E p s.generator with ⟨c, hrefused⟩ | ⟨hok, -⟩
  · obtain ⟨-, hstage⟩ := steps_and_stage_of_error s.ks s.generator s.stage h
    rw [State.afterPacket, hstage, hrefused, events_refuseCommand]
    rfl
  · exact absurd hok h

/-- Settles O38: the run of R125, whose effect is that of a refusal. -/
theorem aRefusedCommandLeavesNoMark : Obligations.ARefusedCommandLeavesNoMark := by
  intro E s p rest hr hw hcmd herror
  obtain ⟨hsteps, -⟩ := steps_and_stage_of_error s.ks s.generator s.stage herror
  rw [← hsteps, runWith_packet hr hw hcmd, afterPacket_of_error herror]

end Sys2Proof.Machine
end
